-- ==== Sys2Proof/Word.lean ====
section
/-! DEFINITION. The machine's bit-vector types (spec 00_scope.md R8, R10). -/

namespace Sys2Proof

/-- `Word32` (00_scope.md R10): the contents of a register, the pc, or an instruction word. Bit 0 is the
least significant bit (R9). -/
abbrev Word := BitVec 32

/-- A register index field, 5 bits (R8): rs, rt or rd. Every value names a register (10_state.md R21). -/
abbrev RegIdx := BitVec 5

/-- A shift-amount field, 5 bits, 0 to 31 (30_encoding.md R69). -/
abbrev Shamt := BitVec 5

/-- A selector field, 6 bits (R8): the opcode or the function code. -/
abbrev Selector := BitVec 6

/-- The immediate field, 16 bits (30_encoding.md R68). -/
abbrev Imm16 := BitVec 16

end Sys2Proof
end

