-- ==== Sys2Proof/Config.lean ====
section
/-! DEFINITION. What the launch of the machine fixes where the source leaves it open (spec 00_scope.md R8).
No operation's result is left open by the spec, so there is no free value here. -/

namespace Sys2Proof.Config

/-- The pc at launch (10_state.md R34). DESIGN CHOICE of the spec (92_eei_decisions.md D3), log entry 2; unsafe. -/
def initialPc : Word := 0x00000000

/-- The register contents that `State.reset` uses. DESIGN CHOICE (log entry 1), unsafe: the spec makes the
contents the launch argument `init_regs` (10_state.md R34, D4), and only its scenarios use a zeroed file. -/
def zeroedRegisters : Vector Word 32 := Vector.replicate 32 0

end Sys2Proof.Config
end

