-- ==== Sys2Proof/Syntax.lean ====
section
/-! DEFINITION. The syntax of the machine: the values of the decoder chain (spec 00_scope.md R13,
30_encoding.md R64 to R77) and `Instr`, one constructor per row of spec/opcode_table.json. -/

namespace Sys2Proof

/-- Instruction Format, the two-valued tag (30_encoding.md R63). -/
inductive InstrFormat where
  | registerFormat
  | immediateFormat
deriving DecidableEq, Repr

/-- Operation Name, the closed enumeration of the ten operations (30_encoding.md R71). The names are the
standard MIPS mnemonics, PRESUMED labels only (92_eei_decisions.md D18, log entry 13). -/
inductive OpName where
  | sll | sra | add | sub | and | or | nor | addi | andi | ori
deriving DecidableEq, Repr

/-- The format of an operation's row in the resolution table (30_encoding.md R71). -/
def OpName.format : OpName → InstrFormat
  | .sll | .sra | .add | .sub | .and | .or | .nor => .registerFormat
  | .addi | .andi | .ori => .immediateFormat

/-- The operand fields of a register-format word (30_encoding.md R64, R66). The function code is not among
them: the resolver reads it from the word. -/
structure RFields where
  rs : RegIdx
  rt : RegIdx
  rd : RegIdx
  shamt : Shamt
deriving DecidableEq, Repr

/-- The operand fields of an immediate-format word (30_encoding.md R65, R66). -/
structure IFields where
  rs : RegIdx
  rt : RegIdx
  imm : Imm16
deriving DecidableEq, Repr

/-- Decoded Fields: the format-tagged record (30_encoding.md R66). -/
inductive DecodedFields where
  | reg (f : RFields)
  | imm (f : IFields)
deriving DecidableEq, Repr

/-- The format a Decoded Fields record is tagged with. -/
def DecodedFields.format : DecodedFields → InstrFormat
  | .reg _ => .registerFormat
  | .imm _ => .immediateFormat

/-- Executable Unit: "the pairing of Decoded Fields with a resolved Operation" (00_scope.md R13,
30_encoding.md R76, R77). The pairing alone does not force the two formats to agree: `ExecUnit.wellFormed`
says that they do. -/
structure ExecUnit where
  op : OpName
  fields : DecodedFields
deriving DecidableEq, Repr

/-- A well-formed Executable Unit: one constructor per row of spec/opcode_table.json, each with the fields
of its own format only, so that "no cross-variant access" can be written (30_encoding.md R66, R76, R77). A
field that an operation ignores is kept (R73): rs of SLL and SRA, shamt of the other five. -/
inductive Instr where
  | sll (f : RFields)
  | sra (f : RFields)
  | add (f : RFields)
  | sub (f : RFields)
  | and (f : RFields)
  | or (f : RFields)
  | nor (f : RFields)
  | addi (f : IFields)
  | andi (f : IFields)
  | ori (f : IFields)
deriving DecidableEq, Repr

/-- The source's "Error taxonomy" (60_exceptions.md R170): the constructors are the codes (D16). -/
inductive CoreError where
  | unrecognizedEncoding
  | malformedFieldRange
deriving DecidableEq, Repr

/-- What decoding a word can raise (60_exceptions.md R176: "Decoding can raise only
`UnrecognizedEncoding`"). `MalformedFieldRange` is not among them (R173). -/
inductive DecodeError where
  | unrecognizedEncoding
deriving DecidableEq, Repr

/-- A decode error as a member of the taxonomy. -/
def DecodeError.toCoreError : DecodeError → CoreError
  | .unrecognizedEncoding => .unrecognizedEncoding

end Sys2Proof
end

