-- ==== Sys2Proof/Machine/State.lean ====
section
/-! DEFINITION. The state as plain data: the architectural state (spec 10_state.md R20) and the run bookkeeping
(R33, 20_memory.md R41); the reasons a step can stop; launch and reset (R34, 70_reset_and_hazards.md R200). -/

namespace Sys2Proof.Machine

/-- Run status (10_state.md R33). -/
inductive Status where
  /-- words remain to be executed -/
  | running
  /-- the stream is exhausted (92_eei_decisions.md D7) -/
  | halted
  /-- an illegal word stopped the run (D6, D15); sticky (60_exceptions.md R179) -/
  | faulted (e : DecodeError) (word : Word) (pc : Word)
deriving DecidableEq, Repr

/-- Why a step stops the machine. -/
inductive Fault where
  /-- Raised by `step` on a word that decodes to no operation: the error, the word and the pc at which it was
  presented (40_execution_engine.md R107, 60_exceptions.md R171); and again by a step of a run that such a word
  has already stopped (R179). The state is not changed (R172). Safe: the machine stops where a driver might
  go on (D6, log entry 4). -/
  | decodeError (e : DecodeError) (word : Word) (pc : Word)
  /-- Raised by `step` when the stream holds no further word: the run has ended (40_execution_engine.md R108,
  D7, log entry 5). Safe: no behaviour of the hardware is left out, because it has no step without a word. -/
  | streamExhausted
deriving DecidableEq, Repr

/-- Why a step has no meaning. No arm of `exec` answers with it: all ten operations have their meaning. -/
inductive Refusal where
  /-- An instruction without a meaning yet, raised by `exec` alone. Safe: the machine stops. -/
  | notModelled (mnemonic : String)
deriving DecidableEq, Repr

/-- The machine's state. `regs` and `pc` are the architectural state (10_state.md R20); the other three are
the run's bookkeeping, which no instruction reads or writes. -/
structure State where
  /-- the Register File, `x[0]` to `x[31]` (R21) -/
  regs : Vector Word 32
  /-- the Program Counter, an unsigned byte offset (R26) -/
  pc : Word
  /-- the instruction words the driver supplies, whole and never changed (20_memory.md R41, R51) -/
  stream : List Word
  /-- the number k of the next step: how many words have been executed (R41) -/
  executed : Nat
  /-- the run status (R33) -/
  status : Status
deriving DecidableEq, Repr

/-- The state at launch, for any register contents and any stream (10_state.md R34, 70_reset_and_hazards.md
R200, R201; log entries 1, 2, 5, 7). -/
def State.launch (initRegs : Vector Word 32) (stream : List Word) : State :=
  { regs := initRegs
    pc := Config.initialPc
    stream := stream
    executed := 0
    status := if stream = [] then .halted else .running }

/-- The machine right after reset with nothing placed: a launch with the register contents the log names
(entry 1) and no words (entry 7). -/
def State.reset : State := State.launch Config.zeroedRegisters []

end Sys2Proof.Machine
end

