-- ==== Sys2Proof/Machine/Ops.lean ====
section
/-! DEFINITION. The shared operations over the register file and the pc, and raising a decode error. -/

namespace Sys2Proof.Machine

/-- The step's three outcomes over this machine's types. -/
abbrev Result := Host.Outcome State Fault Refusal

/-- `x[i]` (spec 00_scope.md R11). Every index reads its register, 0 like the others (10_state.md R21,
R23). -/
def State.readReg (s : State) (r : RegIdx) : Word :=
  s.regs[r.toNat]'(by have := r.isLt; omega)

/-- `x[i] <- v` (00_scope.md R11). A write to index 0 stores its value (10_state.md R23). -/
def State.writeReg (s : State) (r : RegIdx) (v : Word) : State :=
  { s with regs := s.regs.set r.toNat v (by have := r.isLt; omega) }

/-- `pc <- pc + 4`, modulo 2^32 (40_execution_engine.md R104). The wrap past 0xFFFFFFFC is a DESIGN CHOICE of
the spec (92_eei_decisions.md D5), log entry 3; unsafe. -/
def State.advancePc (s : State) : State :=
  { s with pc := s.pc + 4 }

/-- The end every operation shares (40_execution_engine.md R100): (b) write the result, computed before, to
the destination register, then (c) advance the pc. -/
def State.retire (s : State) (dest : RegIdx) (result : Word) : Result :=
  .next ((s.writeReg dest result).advancePc)

/-- Raising a decode error (40_execution_engine.md R107): a fault with the error, the word and the pc. There
is no trap entry (60_exceptions.md R177): no register, mode or pc is written, and control goes nowhere. There
is no return from it (R179). -/
def raiseDecodeError (e : DecodeError) (w : Word) (s : State) : Result :=
  .fault (.decodeError e w s.pc)

/-- What the run's status becomes when a step stops with a fault (40_execution_engine.md R108, 60_exceptions.md
R178): nothing else of the state changes (R172). -/
def State.stop (s : State) (f : Fault) : State :=
  match f with
  | .decodeError e w pc => { s with status := .faulted e w pc }
  | .streamExhausted => { s with status := .halted }

end Sys2Proof.Machine
end

