-- ==== Sys2Proof/Machine/Operands.lean ====
section
/-! DEFINITION. The operand forms (spec 30_encoding.md R67 to R69): a register by its index field, the immediate
sign-extended or zero-extended, the shift amount; and the destination register (40_execution_engine.md R102). -/

namespace Sys2Proof.Machine

/-- `sext_32(imm16)`: bit 15 copied into bits 31 to 16 (30_encoding.md R68; add-immediate only). -/
def sext32 (imm : Imm16) : Word := imm.signExtend 32

/-- `zext_32(imm16)`: bits 31 to 16 are 0 (30_encoding.md R68; and-immediate and or-immediate). -/
def zext32 (imm : Imm16) : Word := imm.zeroExtend 32

/-- The shift count: the shift-amount field as it stands, 0 to 31 (30_encoding.md R69). -/
def shiftCount (shamt : Shamt) : Nat := shamt.toNat

/-- The destination register of a fields record: rd in register format, rt in immediate format
(40_execution_engine.md R102). -/
def dest : DecodedFields → RegIdx
  | .reg f => f.rd
  | .imm f => f.rt

end Sys2Proof.Machine
end

