-- ==== Sys2Proof/Machine/Flags.lean ====
section
/-! DEFINITION. Arithmetic, and the flags it does not set. The hardware has no status flags and no condition codes
(spec 10_state.md R29), so no flag computation exists: signed overflow gives the wrapped bit pattern and
nothing else (40_execution_engine.md R105). -/

namespace Sys2Proof.Machine

/-- `a + b = (uint(a) + uint(b)) mod 2^32` (40_execution_engine.md R105). -/
def add32 (a b : Word) : Word := a + b

/-- `a - b = (uint(a) - uint(b)) mod 2^32` (40_execution_engine.md R105). -/
def sub32 (a b : Word) : Word := a - b

/-- `a << n`, logical left shift: vacated low bits 0, bits past bit 31 lost (00_scope.md R11). -/
def shl32 (a : Word) (n : Nat) : Word := a <<< n

/-- `a >>s n`, arithmetic right shift: vacated high bits are copies of bit 31 (00_scope.md R11). -/
def sar32 (a : Word) (n : Nat) : Word := a.sshiftRight n

end Sys2Proof.Machine
end

