-- ==== Sys2Proof/Machine/ImmediateAlu.lean ====
section
/-! DEFINITION. The register-immediate ALU operations (spec 43_immediate_alu.md). All read x[rs] and the immediate and
write x[rt]. Only ADDI sign-extends (30_encoding.md R68). -/

namespace Sys2Proof.Machine

/-- ADDI, add-immediate (43_immediate_alu.md R150): `x[rt] <- x[rs] + sext_32(imm16)`, modulo 2^32, no trap. -/
def execAddi (f : IFields) (s : State) : Result :=
  s.retire f.rt (add32 (s.readReg f.rs) (sext32 f.imm))

/-- ANDI, and-immediate (43_immediate_alu.md R151): `x[rt] <- x[rs] & zext_32(imm16)`. -/
def execAndi (f : IFields) (s : State) : Result :=
  s.retire f.rt (s.readReg f.rs &&& zext32 f.imm)

/-- ORI, or-immediate (43_immediate_alu.md R152): `x[rt] <- x[rs] | zext_32(imm16)`. -/
def execOri (f : IFields) (s : State) : Result :=
  s.retire f.rt (s.readReg f.rs ||| zext32 f.imm)

end Sys2Proof.Machine
end

