-- ==== Sys2Proof/Machine/RegisterAlu.lean ====
section
/-! DEFINITION. The register-register ALU operations (spec 42_register_alu.md). All read x[rs] and x[rt], write x[rd]
and ignore shamt. -/

namespace Sys2Proof.Machine

/-- ADD (42_register_alu.md R130): `x[rd] <- x[rt] + x[rs]`, modulo 2^32, no trap. -/
def execAdd (f : RFields) (s : State) : Result :=
  s.retire f.rd (add32 (s.readReg f.rt) (s.readReg f.rs))

/-- SUB (42_register_alu.md R131): `x[rd] <- x[rs] - x[rt]`, source minus target, modulo 2^32, no trap. -/
def execSub (f : RFields) (s : State) : Result :=
  s.retire f.rd (sub32 (s.readReg f.rs) (s.readReg f.rt))

/-- AND, bitwise-and (42_register_alu.md R132): `x[rd] <- x[rt] & x[rs]`. -/
def execAnd (f : RFields) (s : State) : Result :=
  s.retire f.rd (s.readReg f.rt &&& s.readReg f.rs)

/-- OR, bitwise-or (42_register_alu.md R133): `x[rd] <- x[rt] | x[rs]`. -/
def execOr (f : RFields) (s : State) : Result :=
  s.retire f.rd (s.readReg f.rt ||| s.readReg f.rs)

/-- NOR, bitwise-nor (42_register_alu.md R134): `x[rd] <- ~(x[rt] | x[rs])`. -/
def execNor (f : RFields) (s : State) : Result :=
  s.retire f.rd (~~~(s.readReg f.rt ||| s.readReg f.rs))

end Sys2Proof.Machine
end

