-- ==== Sys2Proof/Machine/Shift.lean ====
section
/-! DEFINITION. The shift operations (spec 41_shift.md). Both read x[rt] and shamt, write x[rd] and ignore rs. -/

namespace Sys2Proof.Machine

/-- SLL, shift-left-logical (41_shift.md R120): `x[rd] <- x[rt] << shamt`, zero-fill. -/
def execSll (f : RFields) (s : State) : Result :=
  s.retire f.rd (shl32 (s.readReg f.rt) (shiftCount f.shamt))

/-- SRA, shift-right-arithmetic (41_shift.md R121, 90_conflicts.md C1): `x[rd] <- x[rt] >>s shamt`. -/
def execSra (f : RFields) (s : State) : Result :=
  s.retire f.rd (sar32 (s.readReg f.rt) (shiftCount f.shamt))

end Sys2Proof.Machine
end

