-- ==== Sys2Proof/WellFormed.lean ====
section
/-! DEFINITION. The well-formedness checks. The widths of the fields are in their types; what is left to check is
the extractor's bit range, the opcode given to the immediate-format encoder, and the pairing of an operation
with fields of its format. -/

namespace Sys2Proof

/-- A legal bit range of the extractor: `31 >= high_bit >= low_bit >= 0` (30_encoding.md R61, R62). -/
def validRange (hi lo : Int) : Bool := decide (0 ≤ lo ∧ lo ≤ hi ∧ hi ≤ 31)

/-- An opcode that `encI` may be given: non-zero, since opcode 0 selects register format (30_encoding.md
R63, R70). -/
def immediateOpcode (o : Selector) : Bool := decide (o ≠ 0)

/-- An Executable Unit pairs an operation with fields of the operation's own format (30_encoding.md R66,
R76). -/
def ExecUnit.wellFormed (u : ExecUnit) : Bool := decide (u.op.format = u.fields.format)

end Sys2Proof
end

