-- ==== Sys2Proof/Decode.lean ====
section
/-! DEFINITION. The decoder chain, leaf first (spec 30_encoding.md R61 to R78): extractor, classifier, field decoder,
opcode resolver, dispatcher; then the encoder, written from the same encoding tables (R64, R65, R70, R71).
Decoding is total on all words and rejects by name. -/

namespace Sys2Proof

/-- Bit-Field Extractor, `w[hi:lo]` (30_encoding.md R61): bits `hi` down to `lo` of `w`, right-aligned,
unsigned, `hi - lo + 1` bits wide. A bad range cannot be written (R62, D12): the proof argument refuses it. -/
def extract (w : Word) (hi lo : Nat) (_range : lo ≤ hi ∧ hi ≤ 31 := by decide) : BitVec (hi - lo + 1) :=
  BitVec.extractLsb hi lo w

/-- The extractor over unchecked indices: an invalid pair is rejected as `MalformedFieldRange` (30_encoding.md
R62, 60_exceptions.md R170), "not silently miscomputed". The decoder never calls it. -/
def extractChecked (w : Word) (hi lo : Int) : Except CoreError Nat :=
  if validRange hi lo = true then .ok ((w.toNat >>> lo.toNat) % 2 ^ (hi.toNat - lo.toNat + 1))
  else .error .malformedFieldRange

/-- The opcode field, bits 31 to 26 (30_encoding.md R63, R64, R65). -/
def opcodeOf (w : Word) : Selector := extract w 31 26

/-- The function code field, bits 5 to 0 (30_encoding.md R64). -/
def functOf (w : Word) : Selector := extract w 5 0

/-- Format Classifier (30_encoding.md R63). -/
def classify (w : Word) : InstrFormat :=
  if opcodeOf w = 0b000000#6 then .registerFormat else .immediateFormat

/-- The operand fields of a register-format word, at their bit positions (30_encoding.md R64). -/
def rFieldsOf (w : Word) : RFields :=
  { rs := extract w 25 21, rt := extract w 20 16, rd := extract w 15 11, shamt := extract w 10 6 }

/-- The operand fields of an immediate-format word, at their bit positions (30_encoding.md R65). -/
def iFieldsOf (w : Word) : IFields :=
  { rs := extract w 25 21, rt := extract w 20 16, imm := extract w 15 0 }

/-- Field Decoder (30_encoding.md R66): total, its variant the one `classify` selects. -/
def decodeFields (w : Word) : DecodedFields :=
  match classify w with
  | .registerFormat => .reg (rFieldsOf w)
  | .immediateFormat => .imm (iFieldsOf w)

/-- The register-format half of the resolution table: the operation a function code selects (30_encoding.md
R71, R72). -/
def opOfFunct (funct : Selector) : Option OpName :=
  match funct with
  | 0b000000#6 => some .sll
  | 0b000011#6 => some .sra
  | 0b100000#6 => some .add
  | 0b100010#6 => some .sub
  | 0b100100#6 => some .and
  | 0b100101#6 => some .or
  | 0b100111#6 => some .nor
  | _ => none

/-- The immediate-format half of the resolution table: the operation an opcode selects (30_encoding.md R71,
R72). -/
def opOfOpcode (opcode : Selector) : Option OpName :=
  match opcode with
  | 0b001000#6 => some .addi
  | 0b001100#6 => some .andi
  | 0b001101#6 => some .ori
  | _ => none

/-- Opcode Resolver (30_encoding.md R72): the selector of the word's format, looked up in that half of the
table; a word absent from it raises UnrecognizedEncoding (R74) and never defaults to an operation (C3). -/
def resolveName (w : Word) : Except DecodeError OpName :=
  let hit :=
    match classify w with
    | .registerFormat => opOfFunct (functOf w)
    | .immediateFormat => opOfOpcode (opcodeOf w)
  match hit with
  | some op => .ok op
  | none => .error .unrecognizedEncoding

/-- Dispatcher, `build_executable` (30_encoding.md R76): it fails iff the resolver fails. -/
def buildExecutable (w : Word) : Except DecodeError ExecUnit :=
  match resolveName w with
  | .error e => .error e
  | .ok op => .ok { op := op, fields := decodeFields w }

/-- The operation of an instruction. -/
def Instr.op : Instr → OpName
  | .sll _ => .sll
  | .sra _ => .sra
  | .add _ => .add
  | .sub _ => .sub
  | .and _ => .and
  | .or _ => .or
  | .nor _ => .nor
  | .addi _ => .addi
  | .andi _ => .andi
  | .ori _ => .ori

/-- The operand fields of an instruction. -/
def Instr.fields : Instr → DecodedFields
  | .sll f | .sra f | .add f | .sub f | .and f | .or f | .nor f => .reg f
  | .addi f | .andi f | .ori f => .imm f

/-- The Executable Unit an instruction is (30_encoding.md R77). -/
def Instr.toUnit (i : Instr) : ExecUnit := { op := i.op, fields := i.fields }

/-- The instruction that a well-formed Executable Unit is; none for a pair of mismatched formats. -/
def ExecUnit.toInstr (u : ExecUnit) : Option Instr :=
  match u.op, u.fields with
  | .sll, .reg f => some (.sll f)
  | .sra, .reg f => some (.sra f)
  | .add, .reg f => some (.add f)
  | .sub, .reg f => some (.sub f)
  | .and, .reg f => some (.and f)
  | .or, .reg f => some (.or f)
  | .nor, .reg f => some (.nor f)
  | .addi, .imm f => some (.addi f)
  | .andi, .imm f => some (.andi f)
  | .ori, .imm f => some (.ori f)
  | _, _ => none

/-- The whole decoder: `build_executable`, its unit read as an instruction. DEDUCED (log entry 12): the last
arm is never reached, because one `classify` drives both halves of the unit (30_encoding.md R76). -/
def decode (w : Word) : Except DecodeError Instr :=
  match buildExecutable w with
  | .error e => .error e
  | .ok u =>
    match u.toInstr with
    | some i => .ok i
    | none => .error .unrecognizedEncoding

/-- Whether a word is one of the ten operations (30_encoding.md R75: every word is that or illegal). -/
def legal (w : Word) : Bool :=
  match decode w with
  | .ok _ => true
  | .error _ => false

/-! The encoder. -/

/-- The register-format encoder (30_encoding.md R70). -/
def encR (funct : Selector) (rs rt rd : RegIdx) (shamt : Shamt) : Word :=
  0b000000#6 ++ rs ++ rt ++ rd ++ shamt ++ funct

/-- The immediate-format encoder, for a non-zero opcode (30_encoding.md R70; `immediateOpcode`). -/
def encI (opcode : Selector) (rs rt : RegIdx) (imm : Imm16) : Word :=
  opcode ++ rs ++ rt ++ imm

/-- The word of an instruction, from the resolution table's selector values (30_encoding.md R70, R71). -/
def encode : Instr → Word
  | .sll f => encR 0b000000 f.rs f.rt f.rd f.shamt
  | .sra f => encR 0b000011 f.rs f.rt f.rd f.shamt
  | .add f => encR 0b100000 f.rs f.rt f.rd f.shamt
  | .sub f => encR 0b100010 f.rs f.rt f.rd f.shamt
  | .and f => encR 0b100100 f.rs f.rt f.rd f.shamt
  | .or f => encR 0b100101 f.rs f.rt f.rd f.shamt
  | .nor f => encR 0b100111 f.rs f.rt f.rd f.shamt
  | .addi f => encI 0b001000 f.rs f.rt f.imm
  | .andi f => encI 0b001100 f.rs f.rt f.imm
  | .ori f => encI 0b001101 f.rs f.rt f.imm

/-! The opcode map. -/

/-- One row of the opcode map: a word belongs to `op` when its masked bits are `bits` (30_encoding.md R81). -/
structure OpRow where
  op : OpName
  mask : Word
  bits : Word
deriving DecidableEq, Repr

/-- The complete opcode map (30_encoding.md R81). -/
def opcodeMap : List OpRow :=
  [ ⟨.sll, 0xFC00003F, 0x00000000⟩,
    ⟨.sra, 0xFC00003F, 0x00000003⟩,
    ⟨.add, 0xFC00003F, 0x00000020⟩,
    ⟨.sub, 0xFC00003F, 0x00000022⟩,
    ⟨.and, 0xFC00003F, 0x00000024⟩,
    ⟨.or, 0xFC00003F, 0x00000025⟩,
    ⟨.nor, 0xFC00003F, 0x00000027⟩,
    ⟨.addi, 0xFC000000, 0x20000000⟩,
    ⟨.andi, 0xFC000000, 0x30000000⟩,
    ⟨.ori, 0xFC000000, 0x34000000⟩ ]

/-- A word belongs to a row of the opcode map. -/
def OpRow.covers (row : OpRow) (w : Word) : Bool := decide (w &&& row.mask = row.bits)

/-- The 32-bit word whose low `nbits` bits are those of `w` and whose other bits are 0. The core takes a
word as one value with numbered bits, so no byte order enters (20_memory.md R43, log entry 6). -/
def tableWord (nbits w : Nat) : Word := BitVec.ofNat 32 (w % 2 ^ nbits)

/-- The instruction the decoder reads from the word that an opcode-table row gives. -/
def decodeTableWord (nbits w : Nat) : Option Instr :=
  match decode (tableWord nbits w) with
  | .ok i => some i
  | .error _ => none

end Sys2Proof
end

