-- ==== Sys2Proof/Machine/Supply.lean ====
section
/-! DEFINITION. The instruction supply (spec 20_memory.md R41, R42): which word the next step takes, what taking it does
to the run's bookkeeping, and the address view of the stream. -/

namespace Sys2Proof.Machine

/-- The words not yet executed, in order (20_memory.md R41). -/
def State.remaining (s : State) : List Word := s.stream.drop s.executed

/-- The word the next step decodes: step k takes `stream[k]`, and the pc never selects it (20_memory.md R41,
R42). A run that has ended supplies none: the error that ended it is answered again (60_exceptions.md R179),
or the end of the stream (40_execution_engine.md R108). -/
def State.nextWord (s : State) : Except Fault Word :=
  match s.status with
  | .faulted e w pc => .error (.decodeError e w pc)
  | .halted => .error .streamExhausted
  | .running =>
    match s.stream[s.executed]? with
    | some w => .ok w
    | none => .error .streamExhausted

/-- Taking the next word: the step number goes up by one, and the run is `halted` as soon as no word remains,
`running` while words remain (10_state.md R33, 40_execution_engine.md R108). No architectural state changes. -/
def State.consumeWord (s : State) : State :=
  { s with
    executed := s.executed + 1
    status := if s.executed + 1 < s.stream.length then .running else .halted }

/-- The state whose next word is `w`: the driver supplies it at the place of the next step and runs on. If the
step number lies past the end of the stream, which no run reaches, zero words fill the gap. -/
def State.presentWord (s : State) (w : Word) : State :=
  { s with
    stream := (s.stream.take s.executed).rightpad s.executed 0 ++ w :: s.stream.drop (s.executed + 1)
    status := .running }

/-- The address view (20_memory.md R42): word `stream[k]` stands at byte offset `4k` of a read-only space. It
gives the pc a meaning, and no step uses it. -/
def State.wordAtOffset (s : State) (offset : Word) : Option Word :=
  if offset.toNat % 4 = 0 then s.stream[offset.toNat / 4]? else none

end Sys2Proof.Machine
end

