-- ==== Sys2Proof/Machine/Step.lean ====
section
/-! DEFINITION. One step: take the next word, decode it, execute it (spec 40_execution_engine.md R107). -/

namespace Sys2Proof.Machine

/-- One step of the core on the next word of the stream (40_execution_engine.md R107). -/
def step (s : State) : Host.Outcome State Fault Refusal :=
  match s.nextWord with
  | .error f => .fault f
  | .ok w =>
    match decode w with
    | .error e => raiseDecodeError e w s
    | .ok i => exec i s.consumeWord

/-- `s` with the word that an opcode-table row gives placed as the next word of the stream, and the run
running. It stands for the driver's load of a program (log entry 7). -/
def State.withFetchWord (s : State) (nbits w : Nat) : State :=
  s.presentWord (tableWord nbits w)

end Sys2Proof.Machine
end

