-- ==== Sys2Proof/Machine/Run.lean ====
section
/-! DEFINITION. The driver's loop at its interface boundary (spec 40_execution_engine.md R108). -/

namespace Sys2Proof.Machine

/-- At most `n` steps of the run. A fault ends it: the state stays, and the status says why. -/
def drive : Nat → State → State
  | 0, s => s
  | n + 1, s =>
    match step s with
    | .next t => drive n t
    | .fault f => s.stop f
    | .refused _ => s

/-- The run of R108 to its end: one step for each word that remains, and one more that finds the run's end. -/
def run (s : State) : State := drive (s.remaining.length + 1) s

end Sys2Proof.Machine
end

