-- ==== Sys2Proof/Safety.lean ====
section
/-! DEFINITION. The terms claims use: what a step may write, the machine's invariant, a safe stream, and a second,
independent reading of the spec's step and run, straight from the opcode map's masks (spec 30_encoding.md R81)
and the operations' pseudocode, that the machine is compared with. -/

namespace Sys2Proof.Machine

/-- `t` is `s` with `v` written to register `d` and the pc advanced by 4, and nothing else changed: no other
register (40_execution_engine.md R103) and none of the run's bookkeeping. -/
def WritesOnly (d : RegIdx) (v : Word) (s t : State) : Prop :=
  (∀ r, t.readReg r = if r = d then v else s.readReg r) ∧
  t.pc = s.pc + 4 ∧ t.stream = s.stream ∧ t.executed = s.executed ∧ t.status = s.status

/-- The pc is a multiple of 4 (10_state.md R26): what the driver validates after every step (20_memory.md
R44). The model takes no step to check it (40_execution_engine.md R109, log entry 10). -/
abbrev State.PcAligned (s : State) : Prop := s.pc.toNat % 4 = 0

/-- The run status says what the supply says (10_state.md R33): `running` with words left, `halted` with none,
`faulted` with the illegal word that is next and the pc it was presented at. -/
def State.statusAgrees (s : State) : Bool :=
  match s.status with
  | .running => decide (s.executed < s.stream.length)
  | .halted => decide (s.executed = s.stream.length)
  | .faulted _ w pc =>
    decide (s.stream[s.executed]? = some w) && !legal w && decide (pc = s.pc)

/-- The machine's invariant: the status agrees with the supply, and the pc is the byte offset of the next
word, `pc = 4k` (10_state.md R28, 20_memory.md R42). -/
abbrev State.Inv (s : State) : Prop :=
  s.statusAgrees = true ∧ s.pc = BitVec.ofNat 32 (4 * s.executed)

/-- Every word of the stream is one of the ten operations, so that a run of it meets no error. -/
def safeStream (words : List Word) : Bool := words.all legal

/-! The second reading. -/

/-- The architectural state in the shape the spec writes it (10_state.md R20). It is not the machine's state:
statements compare the machine with it. -/
structure ArchState where
  x : RegIdx → Word
  pc : Word

/-- The architectural part of a state. -/
def State.arch (s : State) : ArchState := { x := s.readReg, pc := s.pc }

/-- `x[d] <- v` and `pc <- pc + 4` (40_execution_engine.md R100). -/
def ArchState.put (a : ArchState) (d : RegIdx) (v : Word) : ArchState :=
  { x := fun r => if r = d then v else a.x r, pc := a.pc + 4 }

/-- Bits `lo` and up of a word, `n` of them. -/
def bitsAt (w : Word) (lo n : Nat) : BitVec n := BitVec.ofNat n (w.toNat / 2 ^ lo)

/-- The register-format fields at the bit positions of 30_encoding.md R64. -/
def rFieldsByPosition (w : Word) : RFields :=
  { rs := bitsAt w 21 5, rt := bitsAt w 16 5, rd := bitsAt w 11 5, shamt := bitsAt w 6 5 }

/-- The immediate-format fields at the bit positions of 30_encoding.md R65. -/
def iFieldsByPosition (w : Word) : IFields :=
  { rs := bitsAt w 21 5, rt := bitsAt w 16 5, imm := bitsAt w 0 16 }

/-- One word's effect by mask and match (30_encoding.md R72, R81), with each operation's pseudocode
(41_shift.md, 42_register_alu.md, 43_immediate_alu.md); none is UnrecognizedEncoding (R74). -/
def specStep (a : ArchState) (w : Word) : Option ArchState :=
  let f := rFieldsByPosition w
  let g := iFieldsByPosition w
  if w &&& 0xFC00003F = 0x00000000 then
    some (a.put f.rd (BitVec.ofNat 32 ((a.x f.rt).toNat * 2 ^ f.shamt.toNat)))
  else if w &&& 0xFC00003F = 0x00000003 then
    some (a.put f.rd (BitVec.ofInt 32 (Int.fdiv (a.x f.rt).toInt (2 ^ f.shamt.toNat))))
  else if w &&& 0xFC00003F = 0x00000020 then some (a.put f.rd (a.x f.rt + a.x f.rs))
  else if w &&& 0xFC00003F = 0x00000022 then some (a.put f.rd (a.x f.rs - a.x f.rt))
  else if w &&& 0xFC00003F = 0x00000024 then some (a.put f.rd (a.x f.rt &&& a.x f.rs))
  else if w &&& 0xFC00003F = 0x00000025 then some (a.put f.rd (a.x f.rt ||| a.x f.rs))
  else if w &&& 0xFC00003F = 0x00000027 then some (a.put f.rd (~~~(a.x f.rt ||| a.x f.rs)))
  else if w &&& 0xFC000000 = 0x20000000 then some (a.put g.rt (a.x g.rs + BitVec.ofInt 32 g.imm.toInt))
  else if w &&& 0xFC000000 = 0x30000000 then some (a.put g.rt (a.x g.rs &&& BitVec.ofNat 32 g.imm.toNat))
  else if w &&& 0xFC000000 = 0x34000000 then some (a.put g.rt (a.x g.rs ||| BitVec.ofNat 32 g.imm.toNat))
  else none

/-- The run as the spec writes it, by recursion on the stream (40_execution_engine.md R108). -/
def specRun : ArchState → List Word → ArchState × Status
  | a, [] => (a, .halted)
  | a, w :: ws =>
    match specStep a w with
    | none => (a, .faulted .unrecognizedEncoding w a.pc)
    | some b => specRun b ws

end Sys2Proof.Machine
end

