-- ==== Sys2Proof/Certificates/Slice0/Obligations.lean ====
section
/-! DEFINITION. The statements for the provers. Each docstring names the rule of the spec it formalises, or the log entry
of the choice it rests on. `bitsAt w lo n` is n bits of w from bit lo on. -/

open Sys2Proof Sys2Proof.Machine

/-! Encoding and decoding. -/

/-- 30_encoding.md R61: the extractor returns `(uint(w) >> lo) mod 2^(hi - lo + 1)`. -/
def Obligations.ExtractReturnsTheBitsOfTheRange : Prop :=
  ∀ (w : Word) (hi lo : Nat) (h : lo ≤ hi ∧ hi ≤ 31),
    (extract w hi lo h).toNat = (w.toNat >>> lo) % 2 ^ (hi - lo + 1)

/-- 30_encoding.md R62, 60_exceptions.md R170: the checked extractor rejects every bad range as
MalformedFieldRange, and on a legal range it is the extractor (log entry 9: D12). -/
def Obligations.BadBitRangeIsMalformedFieldRange : Prop :=
  (∀ (w : Word) (hi lo : Int), (hi < lo ∨ lo < 0 ∨ 31 < hi) →
    extractChecked w hi lo = .error .malformedFieldRange) ∧
  ∀ (w : Word) (hi lo : Nat) (h : lo ≤ hi ∧ hi ≤ 31), extractChecked w hi lo = .ok (extract w hi lo h).toNat

/-- 30_encoding.md R63: register format exactly when bits 31 to 26 are 0, immediate format otherwise. -/
def Obligations.OpcodeZeroIsRegisterFormat : Prop :=
  ∀ w : Word, classify w = if bitsAt w 26 6 = 0#6 then .registerFormat else .immediateFormat

/-- 30_encoding.md R66: the fields of every word, legal or not, stand at their bit positions in the variant of
the word's own format. -/
def Obligations.FieldsStandAtTheirBitPositions : Prop :=
  ∀ w : Word, (decodeFields w).format = classify w ∧
    decodeFields w =
      if bitsAt w 26 6 = 0#6 then
        .reg { rs := bitsAt w 21 5, rt := bitsAt w 16 5, rd := bitsAt w 11 5, shamt := bitsAt w 6 5 }
      else .imm { rs := bitsAt w 21 5, rt := bitsAt w 16 5, imm := bitsAt w 0 16 }

/-- 30_encoding.md R72: the resolver answers an operation exactly on the words that its mask and match give,
and UnrecognizedEncoding on every word that none gives. -/
def Obligations.ResolverFollowsMaskAndMatch : Prop :=
  (∀ (w : Word) (op : OpName), resolveName w = .ok op ↔
    match op with
    | .sll => w &&& 0xFC00003F = 0x00000000
    | .sra => w &&& 0xFC00003F = 0x00000003
    | .add => w &&& 0xFC00003F = 0x00000020
    | .sub => w &&& 0xFC00003F = 0x00000022
    | .and => w &&& 0xFC00003F = 0x00000024
    | .or => w &&& 0xFC00003F = 0x00000025
    | .nor => w &&& 0xFC00003F = 0x00000027
    | .addi => w &&& 0xFC000000 = 0x20000000
    | .andi => w &&& 0xFC000000 = 0x30000000
    | .ori => w &&& 0xFC000000 = 0x34000000) ∧
  ∀ w : Word, (∀ op, resolveName w ≠ .ok op) → resolveName w = .error .unrecognizedEncoding

/-- 30_encoding.md R81 (its last sentences are marked derived): the opcode map resolves every word, and at
most one of its rows covers a word. -/
def Obligations.OpcodeMapRowsNeverOverlap : Prop :=
  (∀ (w : Word) (r q : OpRow), r ∈ opcodeMap → q ∈ opcodeMap → r.covers w = true → q.covers w = true → r = q) ∧
  ∀ (w : Word) (op : OpName),
    resolveName w = .ok op ↔ ∃ r, r ∈ opcodeMap ∧ r.covers w = true ∧ r.op = op

/-- 30_encoding.md R74: the words that the decoder rejects are exactly those with a listed function code under
opcode 0, or a listed opcode. -/
def Obligations.RejectedWordsAreTheListedSelectors : Prop :=
  ∀ w : Word, decode w = .error .unrecognizedEncoding ↔
    let funct := (bitsAt w 0 6).toNat
    let opcode := (bitsAt w 26 6).toNat
    (opcode = 0 ∧ (funct = 0x01 ∨ funct = 0x02 ∨ (0x04 ≤ funct ∧ funct ≤ 0x1F) ∨ funct = 0x21 ∨ funct = 0x23 ∨
      funct = 0x26 ∨ (0x28 ≤ funct ∧ funct ≤ 0x3F))) ∨
    (0x01 ≤ opcode ∧ opcode ≤ 0x07) ∨ (0x09 ≤ opcode ∧ opcode ≤ 0x0B) ∨ (0x0E ≤ opcode ∧ opcode ≤ 0x3F)

/-- 30_encoding.md R73 (derived; D14, log entry 8): the bits outside the selector take no part in selection. -/
def Obligations.OperandBitsNeverSelect : Prop :=
  ∀ v w : Word, bitsAt v 26 6 = bitsAt w 26 6 → (bitsAt w 26 6 = 0#6 → bitsAt v 0 6 = bitsAt w 0 6) →
    resolveName v = resolveName w

/-- 30_encoding.md R73 (derived; D14, log entry 8): the shifts execute alike whatever their rs field, and the
other five register-format operations alike whatever their shamt field. -/
def Obligations.IgnoredFieldsNeverMatter : Prop :=
  ∀ (f : RFields) (s : State),
    (∀ rs, (exec (.sll { f with rs := rs }) s = exec (.sll f) s ∧ exec (.sra { f with rs := rs }) s = exec (.sra f) s)) ∧
    ∀ shamt, (exec (.add { f with shamt := shamt }) s = exec (.add f) s ∧
      exec (.sub { f with shamt := shamt }) s = exec (.sub f) s ∧
      exec (.and { f with shamt := shamt }) s = exec (.and f) s ∧
      exec (.or { f with shamt := shamt }) s = exec (.or f) s ∧
      exec (.nor { f with shamt := shamt }) s = exec (.nor f) s)

/-- 30_encoding.md R70: the two encoders lay their arguments out at the table's positions, and decoding the
word gives the same field values bit for bit. -/
def Obligations.EncodedFieldsAreDecodedBack : Prop :=
  (∀ (f : Selector) (s t d : RegIdx) (h : Shamt),
    (encR f s t d h).toNat =
      s.toNat * 2 ^ 21 + t.toNat * 2 ^ 16 + d.toNat * 2 ^ 11 + h.toNat * 2 ^ 6 + f.toNat ∧
    decodeFields (encR f s t d h) = .reg { rs := s, rt := t, rd := d, shamt := h } ∧
    bitsAt (encR f s t d h) 0 6 = f) ∧
  ∀ (o : Selector) (s t : RegIdx) (i : Imm16), immediateOpcode o = true →
    (encI o s t i).toNat = o.toNat * 2 ^ 26 + s.toNat * 2 ^ 21 + t.toNat * 2 ^ 16 + i.toNat ∧
    decodeFields (encI o s t i) = .imm { rs := s, rt := t, imm := i } ∧
    bitsAt (encI o s t i) 26 6 = o

/-- Decoding an encoded instruction gives it back, for every instruction and every operand value; every
`Instr` is a well-formed unit (30_encoding.md sections 5, 6 and 8). -/
def Obligations.DecodeOfEncodeIsTheInstruction : Prop :=
  ∀ i : Instr, i.toUnit.wellFormed = true ∧ decode (encode i) = .ok i

/-- Encoding what a word decodes to gives the word back: decoding drops no bit. -/
def Obligations.EncodeOfDecodeIsTheWord : Prop :=
  ∀ (w : Word) (i : Instr), decode w = .ok i → encode i = w

/-- Words written out in the spec decode to the instruction they stand for (95_test_vectors.md section 2.1),
one for each family and one for each way to be rejected. -/
def Obligations.WrittenOutWordsDecode : Prop :=
  decode 0x00094083 = .ok (.sra { rs := 0, rt := 9, rd := 8, shamt := 2 }) ∧
  decode 0x012A4020 = .ok (.add { rs := 9, rt := 10, rd := 8, shamt := 0 }) ∧
  decode 0x03FFFFE7 = .ok (.nor { rs := 31, rt := 31, rd := 31, shamt := 31 }) ∧
  decode 0x2128FFFF = .ok (.addi { rs := 9, rt := 8, imm := 0xFFFF }) ∧
  decode 0x00000002 = .error .unrecognizedEncoding ∧
  decode 0x8C220000 = .error .unrecognizedEncoding

/-- 30_encoding.md R76 (its pairing clause is marked derived): `build_executable` pairs the resolved operation
with the word's fields, fails exactly when the resolver fails, and always pairs fields of the operation's own
format. -/
def Obligations.DispatcherPairsOperationWithItsFields : Prop :=
  ∀ w : Word,
    (∀ op, resolveName w = .ok op → buildExecutable w = .ok { op := op, fields := decodeFields w }) ∧
    (∀ e, resolveName w = .error e → buildExecutable w = .error e) ∧
    ∀ u, buildExecutable w = .ok u → u.op.format = u.fields.format ∧ ∃ i, decode w = .ok i ∧ i.toUnit = u

/-! The ten operations: the words that are one, its result, and its frame. `WritesOnly d v s t` says that t is s
with v in register d and the pc advanced by 4, and every other register and the run's bookkeeping as before. Its
`pc + 4` is the rules' own, on 32 bits; that it wraps past 0xFFFFFFFC is the spec's decision D5 (log entry 3). -/

/-- 41_shift.md R120. -/
def Obligations.SllShiftsTargetLeftIntoRd : Prop :=
  (∀ w : Word, w &&& 0xFC00003F = 0x00000000 → decode w = .ok (.sll (rFieldsByPosition w))) ∧
  ∀ (f : RFields) (s : State), ∃ t, exec (.sll f) s = .next t ∧
    WritesOnly f.rd (BitVec.ofNat 32 ((s.readReg f.rt).toNat * 2 ^ f.shamt.toNat)) s t

/-- 41_shift.md R121: the floor of the signed quotient, and the same by bits. -/
def Obligations.SraShiftsTargetRightKeepingSign : Prop :=
  (∀ w : Word, w &&& 0xFC00003F = 0x00000003 → decode w = .ok (.sra (rFieldsByPosition w))) ∧
  ∀ (f : RFields) (s : State), ∃ t v, exec (.sra f) s = .next t ∧ WritesOnly f.rd v s t ∧
    v.toInt = Int.fdiv (s.readReg f.rt).toInt (2 ^ f.shamt.toNat) ∧
    ∀ k, k < 32 → v.getLsbD k =
      if k + f.shamt.toNat < 32 then (s.readReg f.rt).getLsbD (k + f.shamt.toNat) else (s.readReg f.rt).getLsbD 31

/-- 42_register_alu.md R130. -/
def Obligations.AddWritesWrappedSumIntoRd : Prop :=
  (∀ w : Word, w &&& 0xFC00003F = 0x00000020 → decode w = .ok (.add (rFieldsByPosition w))) ∧
  ∀ (f : RFields) (s : State), ∃ t, exec (.add f) s = .next t ∧
    WritesOnly f.rd (s.readReg f.rt + s.readReg f.rs) s t

/-- 42_register_alu.md R131: source minus target. -/
def Obligations.SubWritesSourceMinusTargetIntoRd : Prop :=
  (∀ w : Word, w &&& 0xFC00003F = 0x00000022 → decode w = .ok (.sub (rFieldsByPosition w))) ∧
  ∀ (f : RFields) (s : State), ∃ t, exec (.sub f) s = .next t ∧
    WritesOnly f.rd (s.readReg f.rs - s.readReg f.rt) s t

/-- 42_register_alu.md R132. -/
def Obligations.AndWritesBitwiseAndIntoRd : Prop :=
  (∀ w : Word, w &&& 0xFC00003F = 0x00000024 → decode w = .ok (.and (rFieldsByPosition w))) ∧
  ∀ (f : RFields) (s : State), ∃ t, exec (.and f) s = .next t ∧
    WritesOnly f.rd (s.readReg f.rt &&& s.readReg f.rs) s t

/-- 42_register_alu.md R133. -/
def Obligations.OrWritesBitwiseOrIntoRd : Prop :=
  (∀ w : Word, w &&& 0xFC00003F = 0x00000025 → decode w = .ok (.or (rFieldsByPosition w))) ∧
  ∀ (f : RFields) (s : State), ∃ t, exec (.or f) s = .next t ∧
    WritesOnly f.rd (s.readReg f.rt ||| s.readReg f.rs) s t

/-- 42_register_alu.md R134. -/
def Obligations.NorWritesComplementOfOrIntoRd : Prop :=
  (∀ w : Word, w &&& 0xFC00003F = 0x00000027 → decode w = .ok (.nor (rFieldsByPosition w))) ∧
  ∀ (f : RFields) (s : State), ∃ t, exec (.nor f) s = .next t ∧
    WritesOnly f.rd (~~~(s.readReg f.rt ||| s.readReg f.rs)) s t

/-- 43_immediate_alu.md R150: the immediate by its signed value. -/
def Obligations.AddiAddsSignedImmediateIntoRt : Prop :=
  (∀ w : Word, w &&& 0xFC000000 = 0x20000000 → decode w = .ok (.addi (iFieldsByPosition w))) ∧
  ∀ (f : IFields) (s : State), ∃ t, exec (.addi f) s = .next t ∧
    WritesOnly f.rt (s.readReg f.rs + BitVec.ofInt 32 f.imm.toInt) s t

/-- 43_immediate_alu.md R151: the immediate by its unsigned value. -/
def Obligations.AndiMasksWithUnsignedImmediateIntoRt : Prop :=
  (∀ w : Word, w &&& 0xFC000000 = 0x30000000 → decode w = .ok (.andi (iFieldsByPosition w))) ∧
  ∀ (f : IFields) (s : State), ∃ t, exec (.andi f) s = .next t ∧
    WritesOnly f.rt (s.readReg f.rs &&& BitVec.ofNat 32 f.imm.toNat) s t

/-- 43_immediate_alu.md R152: the immediate by its unsigned value. -/
def Obligations.OriSetsUnsignedImmediateBitsIntoRt : Prop :=
  (∀ w : Word, w &&& 0xFC000000 = 0x34000000 → decode w = .ok (.ori (iFieldsByPosition w))) ∧
  ∀ (f : IFields) (s : State), ∃ t, exec (.ori f) s = .next t ∧
    WritesOnly f.rt (s.readReg f.rs ||| BitVec.ofNat 32 f.imm.toNat) s t

/-! Rules over all operations. -/

/-- 40_execution_engine.md R105: sums and differences modulo 2^32, the same bits under the unsigned and the
signed reading, and on overflow nothing but the wrapped result (no trap, and the frame of `WritesOnly`, whose pc wrap is D5, log entry 3). -/
def Obligations.ArithmeticWrapsUnderBothReadings : Prop :=
  (∀ (f : RFields) (s : State), ∃ t v, exec (.add f) s = .next t ∧ WritesOnly f.rd v s t ∧
    v.toNat = ((s.readReg f.rt).toNat + (s.readReg f.rs).toNat) % 2 ^ 32 ∧
    v = BitVec.ofInt 32 ((s.readReg f.rt).toInt + (s.readReg f.rs).toInt)) ∧
  (∀ (f : RFields) (s : State), ∃ t v, exec (.sub f) s = .next t ∧ WritesOnly f.rd v s t ∧
    (v.toNat : Int) = (((s.readReg f.rs).toNat : Int) - ((s.readReg f.rt).toNat : Int)) % 2 ^ 32 ∧
    v = BitVec.ofInt 32 ((s.readReg f.rs).toInt - (s.readReg f.rt).toInt)) ∧
  ∀ (f : IFields) (s : State), ∃ t v, exec (.addi f) s = .next t ∧ WritesOnly f.rt v s t ∧
    (v.toNat : Int) = (((s.readReg f.rs).toNat : Int) + f.imm.toInt) % 2 ^ 32 ∧
    v = BitVec.ofInt 32 ((s.readReg f.rs).toInt + f.imm.toInt)

/-- 30_encoding.md R68: the immediate is bits 15 to 0; ADDI uses it sign-extended, ANDI and ORI zero-extended. -/
def Obligations.OnlyAddiSignExtends : Prop :=
  (∀ (w : Word) (f : IFields), (decode w = .ok (.addi f) ∨ decode w = .ok (.andi f) ∨ decode w = .ok (.ori f)) →
    f.imm = bitsAt w 0 16) ∧
  (∀ imm : Imm16, (sext32 imm).toInt = imm.toInt ∧ (zext32 imm).toNat = imm.toNat ∧
    ∀ k, 16 ≤ k → k < 32 → (sext32 imm).getLsbD k = imm.getLsbD 15 ∧ (zext32 imm).getLsbD k = false) ∧
  ∀ (f : IFields) (s : State), ∃ t u v,
    exec (.addi f) s = .next t ∧ t.readReg f.rt = s.readReg f.rs + sext32 f.imm ∧
    exec (.andi f) s = .next u ∧ u.readReg f.rt = s.readReg f.rs &&& zext32 f.imm ∧
    exec (.ori f) s = .next v ∧ v.readReg f.rt = s.readReg f.rs ||| zext32 f.imm

/-- 40_execution_engine.md R102, R103: every operation answers a next state in which only its destination
(rd in register format, rt in immediate format) and the pc may differ (its 32-bit wrap: log entry 3). -/
def Obligations.EveryOperationWritesItsDestinationOnly : Prop :=
  ∀ (i : Instr) (s : State), ∃ t v, exec i s = .next t ∧
    WritesOnly (match i.fields with | .reg f => f.rd | .imm f => f.rt) v s t

/-- 10_state.md R24, 40_execution_engine.md R101: an operation's result depends on the pre-step values of the
source registers of its row alone; not on the pc, on another register or on the run's bookkeeping. -/
def Obligations.ResultDependsOnSourceRegistersOnly : Prop :=
  ∀ (i : Instr) (s t s' t' : State),
    (match i with
      | .sll f | .sra f => s.readReg f.rt = t.readReg f.rt
      | .add f | .sub f | .and f | .or f | .nor f =>
        s.readReg f.rs = t.readReg f.rs ∧ s.readReg f.rt = t.readReg f.rt
      | .addi f | .andi f | .ori f => s.readReg f.rs = t.readReg f.rs) →
    exec i s = .next s' → exec i t = .next t' →
    s'.readReg (match i.fields with | .reg f => f.rd | .imm f => f.rt) =
      t'.readReg (match i.fields with | .reg f => f.rd | .imm f => f.rt)

/-- 10_state.md R23: register 0 is an ordinary register. ADDI $0, $0, imm stores its sum there, and the ADD
after it reads that sum. -/
def Obligations.RegisterZeroKeepsWhatIsWritten : Prop :=
  ∀ (s : State) (imm : Imm16) (d : RegIdx), ∃ t u,
    exec (.addi { rs := 0, rt := 0, imm := imm }) s = .next t ∧
    t.readReg 0 = s.readReg 0 + BitVec.ofInt 32 imm.toInt ∧
    exec (.add { rs := 0, rt := 0, rd := d, shamt := 0 }) t = .next u ∧
    u.readReg d = (s.readReg 0 + BitVec.ofInt 32 imm.toInt) + (s.readReg 0 + BitVec.ofInt 32 imm.toInt)

/-- 40_execution_engine.md R104. THE MODEL'S CHOICE in one clause, after the spec's decision D5 (log entry 3):
past 0xFFFFFFFC the pc wraps to 0. -/
def Obligations.PcAdvancesByFourAndWrapsToZero : Prop :=
  ∀ (i : Instr) (s : State), ∃ t, exec i s = .next t ∧
    t.pc.toNat = if s.pc.toNat + 4 < 2 ^ 32 then s.pc.toNat + 4 else s.pc.toNat + 4 - 2 ^ 32

/-- 30_encoding.md R75 (derived): the all-zero word is an ordinary SLL whose net effect is the pc's advance
(its 32-bit wrap: D5, log entry 3). -/
def Obligations.AllZeroWordOnlyAdvancesPc : Prop :=
  ∀ s : State, ∃ i t, decode 0x00000000 = .ok i ∧ exec i s = .next t ∧ t = { s with pc := s.pc + 4 }

/-! The step. -/

/-- 40_execution_engine.md R107: when the next word of a running run decodes to i, the step is exec of i at
the state with the word taken: registers, pc and stream as they were, one more word executed, and the run
halted when no word remains (log entry 5: D7). -/
def Obligations.StepExecutesTheDecodedWord : Prop :=
  ∀ (s : State) (w : Word) (i : Instr),
    s.status = .running → s.stream[s.executed]? = some w → decode w = .ok i →
    step s = exec i
      { s with executed := s.executed + 1,
               status := if s.executed + 1 < s.stream.length then .running else .halted }

/-- 40_execution_engine.md R107, 60_exceptions.md R171, R172, R178 (the payload is the spec's decision D15, the sticky
status its decision D6: log entry 4): when the next word of a running run matches no table entry, the step is the fault with that word and the pc,
and the state with the run stopped on it has every register, the pc and the stream as before. -/
def Obligations.UnrecognizedWordFaultsAndChangesNothing : Prop :=
  ∀ (s : State) (w : Word),
    s.status = .running → s.stream[s.executed]? = some w → buildExecutable w = .error .unrecognizedEncoding →
    step s = .fault (.decodeError .unrecognizedEncoding w s.pc) ∧
    run s = { s with status := .faulted .unrecognizedEncoding w s.pc }

/-- 40_execution_engine.md R107: "There is no third outcome." A step of a running run with a word left either
executes it or faults on it (the fault's payload is the spec's decision D15, log entry 4), and no step of any state
is refused. -/
def Obligations.StepHasNoThirdOutcome : Prop :=
  (∀ (s : State) (w : Word), s.status = .running → s.stream[s.executed]? = some w →
    ((∃ u t, buildExecutable w = .ok u ∧ step s = .next t) ∨
      (buildExecutable w = .error .unrecognizedEncoding ∧
        step s = .fault (.decodeError .unrecognizedEncoding w s.pc)))) ∧
  ∀ (s : State) (r : Refusal), step s ≠ .refused r

/-- THE MODEL'S CHOICE, after the spec's decisions D6 and D7 (log entries 4 and 5): a run that has ended takes
no step. A faulted one answers its error again, a halted one the end of the stream, and the run stays. -/
def Obligations.EndedRunTakesNoStep : Prop :=
  (∀ (s : State) (e : DecodeError) (w pc : Word), s.status = .faulted e w pc →
    step s = .fault (.decodeError e w pc) ∧ run s = s) ∧
  ∀ s : State, s.status = .halted → step s = .fault .streamExhausted ∧ run s = s

/-- 20_memory.md R51: neither an operation nor a step changes the instruction stream. -/
def Obligations.NothingWritesTheInstructionStream : Prop :=
  (∀ (i : Instr) (s t : State), exec i s = .next t → t.stream = s.stream) ∧
  (∀ s t : State, step s = .next t → t.stream = s.stream) ∧
  ∀ s : State, (run s).stream = s.stream

/-- 20_memory.md R41, 10_state.md R27: a step takes exactly the next word of the stream, changes at most one
register and advances the pc by 4 (its 32-bit wrap: D5, log entry 3; the step number k: log entry 6). -/
def Obligations.StepTakesOneWordAndWritesOneRegister : Prop :=
  ∀ s t : State, step s = .next t →
    t.executed = s.executed + 1 ∧ t.pc = s.pc + 4 ∧
    ∃ w i v, s.stream[s.executed]? = some w ∧ decode w = .ok i ∧
      ∀ r, t.readReg r = if r = dest i.fields then v else s.readReg r

/-- 10_state.md R32, 30_encoding.md R78: no instruction history. Two running runs with the same registers, the
same pc and the same next word take the same step on the architectural state, whatever came before, or the same fault (payload: D15, log entry 4). -/
def Obligations.StepIgnoresInstructionHistory : Prop :=
  ∀ s t : State, s.status = .running → t.status = .running → s.regs = t.regs → s.pc = t.pc →
    (∃ w, s.stream[s.executed]? = some w ∧ t.stream[t.executed]? = some w) →
    (∃ s' t', step s = .next s' ∧ step t = .next t' ∧ s'.regs = t'.regs ∧ s'.pc = t'.pc) ∨
    (∃ f, step s = .fault f ∧ step t = .fault f)

/-! Launch and invariants. -/

/-- 10_state.md R34, 70_reset_and_hazards.md R200 (the spec's decisions D3, D4, D7: log entries 1, 2, 5): launch
for any register contents and any stream; and State.reset is the launch with zeroed registers (log entry 1)
and no words (log entry 7). -/
def Obligations.LaunchHoldsItsArguments : Prop :=
  (∀ (r : Vector Word 32) (ws : List Word),
    (∀ k, (State.launch r ws).readReg k = r[k.toNat]'(by have := k.isLt; omega)) ∧
    (State.launch r ws).pc = 0x00000000 ∧ (State.launch r ws).remaining = ws ∧
    ((State.launch r ws).status = .running ↔ ws ≠ []) ∧ ((State.launch r ws).status = .halted ↔ ws = [])) ∧
  (∀ k, State.reset.readReg k = 0) ∧ State.reset = State.launch (Vector.replicate 32 0) []

/-- 10_state.md R28, R33, R34: the invariant and the pc's alignment hold at launch, for any register contents and any
stream, and the invariant so at reset. It rests on the initial pc 0 (D3, log entry 2), on the status of an empty and
of a non-empty stream (D7, log entry 5) and, for reset, on the choice of no words (log entry 7). -/
def Obligations.LaunchMeetsTheInvariant : Prop :=
  (∀ (r : Vector Word 32) (ws : List Word), (State.launch r ws).Inv ∧ (State.launch r ws).PcAligned) ∧
  State.reset.Inv

/-- From every state that meets it, not only from runs, every step keeps the invariant: the status agrees with
the supply and the pc is the byte offset of the next word (10_state.md R28, R33). It rests on the pc's 32-bit wrap
(D5, log entry 3), on the halted status as soon as no word is left (D7, log entry 5) and on the step number (log
entry 6). -/
def Obligations.EveryStepKeepsTheInvariant : Prop :=
  ∀ s t : State, s.Inv → step s = .next t → t.Inv

/-- 40_execution_engine.md R108, 10_state.md R28, R33: from every state that meets the invariant, the whole run ends in
one that meets it. THE MODEL'S CHOICES, after the spec's decisions, in its clauses: halted when no word is left (D7,
log entry 5), faulted with the illegal word and its pc, and sticky (D6, D15: log entry 4), the pc 4k wrapping past
0xFFFFFFFC (D5, log entry 3), k the step number (log entry 6). -/
def Obligations.RunKeepsTheInvariant : Prop :=
  ∀ s : State, s.Inv → (run s).Inv ∧ (run s).status ≠ .running

/-- 20_memory.md R44, 40_execution_engine.md R109: from an aligned pc every operation, every step and every run
leaves it aligned, so the driver's check never fails (the check is left out: D13, log entry 10; the pc's 32-bit wrap:
D5, log entry 3). -/
def Obligations.PcStaysAligned : Prop :=
  (∀ (i : Instr) (s t : State), s.PcAligned → exec i s = .next t → t.PcAligned) ∧
  (∀ s t : State, s.PcAligned → step s = .next t → t.PcAligned) ∧
  ∀ s : State, s.PcAligned → (run s).PcAligned

/-- 20_memory.md R42 (the spec's decision D2, log entry 6): in a stream of at most 2^30 words, the word at byte
offset pc is the word the next step decodes. -/
def Obligations.WordAtThePcIsTheNextWord : Prop :=
  ∀ s : State, s.Inv → s.status = .running → s.stream.length ≤ 2 ^ 30 →
    s.pc.toNat = 4 * s.executed ∧ s.wordAtOffset s.pc = s.stream[s.executed]?

/-! The run. -/

/-- 40_execution_engine.md R107, 30_encoding.md R81, with the pseudocode of 41_shift.md, 42_register_alu.md and
43_immediate_alu.md: the machine's step is the step of the second reading, which goes by masks and pseudocode alone.
On a word that no row matches it is the fault with that word and the pc, the spec's decision D15 (log entry 4). The
pc's wrap rests on D5 (log entry 3), and the words with a non-zero unused field on D14 (log entry 8). -/
def Obligations.StepRefinesTheMaskAndMatchReading : Prop :=
  ∀ (s : State) (w : Word), s.status = .running → s.stream[s.executed]? = some w →
    (∀ a, specStep s.arch w = some a → ∃ t, step s = .next t ∧ t.arch = a) ∧
    (specStep s.arch w = none → step s = .fault (.decodeError .unrecognizedEncoding w s.pc))

/-- 40_execution_engine.md R108: from every launch, the machine's run ends in the registers, the pc and the status that
the spec's recursion on the stream, `specRun`, gives. The faulted status and its payload rest on D6 and D15 (log entry
4), the halted one on D7 (log entry 5), the pc's wrap on D5 (log entry 3), unused fields on D14 (log entry 8). -/
def Obligations.RunRefinesTheSpecRecursion : Prop :=
  ∀ (r : Vector Word 32) (ws : List Word),
    ((run (State.launch r ws)).arch, (run (State.launch r ws)).status) = specRun (State.launch r ws).arch ws

/-- 40_execution_engine.md R108 (derived): a run always ends, after at most as many steps as the stream has
words. THE MODEL'S CHOICES in two clauses: pc = 4n rests on the initial pc 0 and the wrap past 0xFFFFFFFC (decisions
D3 and D5: log entries 2 and 3), and the halted clause on when a run is halted (decision D7: log entry 5). -/
def Obligations.EveryRunEndsWithinItsStream : Prop :=
  (∀ s : State, (run s).status ≠ .running) ∧
  ∀ (r : Vector Word 32) (ws : List Word), ∃ n, n ≤ ws.length ∧ (run (State.launch r ws)).executed = n ∧
    (run (State.launch r ws)).pc = BitVec.ofNat 32 (4 * n) ∧
    ((run (State.launch r ws)).status = .halted → n = ws.length)

/-- 40_execution_engine.md R106, R108: a stream of legal words runs to its end, each word executed once. The pc's
value rests on log entries 2 and 3 (D3, D5), and the status halted on log entry 5 (D7). -/
def Obligations.SafeStreamRunsToItsEnd : Prop :=
  ∀ (r : Vector Word 32) (ws : List Word), safeStream ws = true →
    (run (State.launch r ws)).status = .halted ∧ (run (State.launch r ws)).executed = ws.length ∧
    (run (State.launch r ws)).pc = BitVec.ofNat 32 (4 * ws.length)

/-- 40_execution_engine.md R108, 60_exceptions.md R172, R178 (decisions D6, D15: log entry 4): the first illegal word
stops the run in the state before it, and no later word is executed. The pc that the status carries rests on the
initial pc 0 and the wrap past 0xFFFFFFFC (D3, D5: log entries 2 and 3). -/
def Obligations.FirstIllegalWordEndsTheRun : Prop :=
  ∀ (r : Vector Word 32) (pre post : List Word) (w : Word), safeStream pre = true → legal w = false →
    run (State.launch r (pre ++ w :: post)) =
      { run (State.launch r pre) with
        stream := pre ++ w :: post,
        status := .faulted .unrecognizedEncoding w (BitVec.ofNat 32 (4 * pre.length)) }

/-- 70_reset_and_hazards.md R204, 20_memory.md R48: steps happen in stream order and each step's writes are
complete before the next step reads. The machine's run over two streams in a row ends as the spec's own recursion
`specRun` of R108 (40_execution_engine.md), and not a second run of the machine, ends over the second stream from where
the machine's run over the first one ended. The status clause rests on D6 and D15 (faulted with word and pc, log entry
4) and D7 (halted at the end, log entry 5), the pc's wrap on D5 (log entry 3), unused fields on D14 (log entry 8). -/
def Obligations.RunsComposeInStreamOrder : Prop :=
  ∀ (r : Vector Word 32) (as bs : List Word), safeStream as = true →
    ((run (State.launch r (as ++ bs))).arch, (run (State.launch r (as ++ bs))).status) =
      specRun (run (State.launch r as)).arch bs
end

