-- ==== Sys2Proof/Laws/Decode.lean ====
section
/-! SUPPORT. The decoder chain, one lemma per component. -/

namespace Sys2Proof

/-- The extractor is `BitVec.extractLsb`, under which the library's lemmas stand. -/
theorem extract_eq_extractLsb (w : Word) (hi lo : Nat) (h : lo ≤ hi ∧ hi ≤ 31) :
    extract w hi lo h = BitVec.extractLsb hi lo w := rfl

theorem getLsbD_opcodeOf (w : Word) (k : Nat) (hk : k < 6) : (opcodeOf w).getLsbD k = w.getLsbD (26 + k) := by
  simp only [opcodeOf, extract, BitVec.extractLsb]
  rw [BitVec.getLsbD_extractLsb']
  simp [hk]
theorem getLsbD_functOf (w : Word) (k : Nat) (hk : k < 6) : (functOf w).getLsbD k = w.getLsbD k := by
  simp only [functOf, extract, BitVec.extractLsb]
  rw [BitVec.getLsbD_extractLsb']
  simp [hk]

theorem opcodeOf_eq_iff (v w : Word) :
    opcodeOf v = opcodeOf w ↔ ∀ k, 26 ≤ k → k < 32 → v.getLsbD k = w.getLsbD k := by
  constructor
  · intro h k h1 h2
    have := congrArg (·.getLsbD (k - 26)) h
    simpa only [getLsbD_opcodeOf _ _ (show k - 26 < 6 by omega), show 26 + (k - 26) = k by omega] using this
  · intro h
    apply BitVec.eq_of_getLsbD_eq
    intro k hk
    rw [getLsbD_opcodeOf _ _ hk, getLsbD_opcodeOf _ _ hk]
    exact h _ (by omega) (by omega)
theorem functOf_eq_iff (v w : Word) : functOf v = functOf w ↔ ∀ k, k < 6 → v.getLsbD k = w.getLsbD k := by
  constructor
  · intro h k hk
    have := congrArg (·.getLsbD k) h
    simpa only [getLsbD_functOf _ _ hk] using this
  · intro h
    apply BitVec.eq_of_getLsbD_eq
    intro k hk
    rw [getLsbD_functOf _ _ hk, getLsbD_functOf _ _ hk]
    exact h k hk

/-- A mask and match is an equality of the masked bits. -/
theorem and_mask_eq_iff (w mask bits : Word) (hb : bits &&& mask = bits) :
    w &&& mask = bits ↔ ∀ k, k < 32 → mask.getLsbD k = true → w.getLsbD k = bits.getLsbD k := by
  constructor
  · intro h k _ hm
    have := congrArg (·.getLsbD k) h
    simpa [hm] using this
  · intro h
    rw [← hb]
    apply BitVec.eq_of_getLsbD_eq
    intro k hk
    rw [BitVec.getLsbD_and, BitVec.getLsbD_and]
    cases hm : mask.getLsbD k with
    | true => rw [h k hk hm]
    | false => simp

/-- The bits of the register-format mask: the opcode and the function code. -/
theorem rMask_bits : ∀ k : Fin 32, (0xFC00003F : Word).getLsbD k = true ↔ (26 ≤ k.val ∨ k.val < 6) := by decide
/-- The bits of the immediate-format mask: the opcode. -/
theorem iMask_bits : ∀ k : Fin 32, (0xFC000000 : Word).getLsbD k = true ↔ 26 ≤ k.val := by decide

/-- A register-format mask and match fixes the two selectors and no other bit (spec 30_encoding.md R72, R73). -/
theorem rMask_iff {w bits : Word} (hb : bits &&& 0xFC00003F = bits) :
    w &&& 0xFC00003F = bits ↔ opcodeOf w = opcodeOf bits ∧ functOf w = functOf bits := by
  rw [and_mask_eq_iff w _ bits hb, opcodeOf_eq_iff, functOf_eq_iff]
  constructor
  · intro h
    exact ⟨fun k h1 h2 => h k h2 ((rMask_bits ⟨k, h2⟩).mpr (.inl h1)),
      fun k h1 => h k (by omega) ((rMask_bits ⟨k, by omega⟩).mpr (.inr h1))⟩
  · rintro ⟨ho, hf⟩ k hk hm
    obtain h1 | h1 := (rMask_bits ⟨k, hk⟩).mp hm
    · exact ho k h1 hk
    · exact hf k h1

/-- An immediate-format mask and match fixes the opcode and no other bit (spec 30_encoding.md R72, R73). -/
theorem iMask_iff {w bits : Word} (hb : bits &&& 0xFC000000 = bits) :
    w &&& 0xFC000000 = bits ↔ opcodeOf w = opcodeOf bits := by
  rw [and_mask_eq_iff w _ bits hb, opcodeOf_eq_iff]
  exact ⟨fun h k h1 h2 => h k h2 ((iMask_bits ⟨k, h2⟩).mpr h1),
    fun h k hk hm => h k ((iMask_bits ⟨k, hk⟩).mp hm) hk⟩

theorem classify_eq_register_iff (w : Word) : classify w = .registerFormat ↔ opcodeOf w = 0#6 := by
  unfold classify
  split <;> simp_all

/-- The field decoder's tag is the classifier's. -/
theorem decodeFields_format (w : Word) : (decodeFields w).format = classify w := by
  unfold decodeFields
  split <;> simp_all [DecodedFields.format]

theorem opOfFunct_format {f : Selector} {op : OpName} (h : opOfFunct f = some op) :
    op.format = .registerFormat := by
  unfold opOfFunct at h
  split at h <;> first | (cases h; rfl) | cases h

theorem opOfOpcode_format {o : Selector} {op : OpName} (h : opOfOpcode o = some op) :
    op.format = .immediateFormat := by
  unfold opOfOpcode at h
  split at h <;> first | (cases h; rfl) | cases h

/-- When the resolver answers an operation: the half of the table that the opcode selects holds it. -/
theorem resolveName_ok_iff {w : Word} {op : OpName} : resolveName w = .ok op ↔
    (opcodeOf w = 0#6 ∧ opOfFunct (functOf w) = some op) ∨
    (opcodeOf w ≠ 0#6 ∧ opOfOpcode (opcodeOf w) = some op) := by
  unfold resolveName classify
  by_cases h : opcodeOf w = 0#6
  · cases opOfFunct (functOf w) <;> simp [h]
  · cases opOfOpcode (opcodeOf w) <;> simp [h]

/-- The resolver's operation is of the word's format. -/
theorem resolveName_format {w : Word} {op : OpName} (h : resolveName w = .ok op) : op.format = classify w := by
  obtain ⟨hc, ho⟩ | ⟨hc, ho⟩ := resolveName_ok_iff.mp h
  · rw [opOfFunct_format ho, classify, if_pos hc]
  · rw [opOfOpcode_format ho, classify, if_neg hc]

/-- What the dispatcher answers when it answers a unit. -/
theorem buildExecutable_cases {w : Word} {u : ExecUnit} (h : buildExecutable w = .ok u) :
    resolveName w = .ok u.op ∧ u.fields = decodeFields w := by
  unfold buildExecutable at h
  split at h <;> simp_all
  obtain rfl := h
  simp_all

@[simp] theorem toUnit_op (i : Instr) : i.toUnit.op = i.op := rfl
@[simp] theorem toUnit_fields (i : Instr) : i.toUnit.fields = i.fields := rfl

/-- An instruction is the unit it makes. -/
@[simp] theorem toInstr_toUnit (i : Instr) : i.toUnit.toInstr = some i := by cases i <;> rfl

/-- A unit is read as an instruction exactly when it is well formed. -/
theorem toInstr_isSome_iff (u : ExecUnit) : u.toInstr.isSome = true ↔ u.wellFormed = true := by
  obtain ⟨op, f⟩ := u
  cases op <;> cases f <;> simp [ExecUnit.toInstr, ExecUnit.wellFormed, OpName.format, DecodedFields.format]

theorem toInstr_eq_some {u : ExecUnit} {i : Instr} (h : u.toInstr = some i) : u = i.toUnit := by
  obtain ⟨op, f⟩ := u
  cases op <;> cases f <;> cases h <;> rfl

/-- What the decoder answers when it answers an instruction. -/
theorem decode_cases {w : Word} {i : Instr} (h : decode w = .ok i) :
    resolveName w = .ok i.op ∧ i.fields = decodeFields w := by
  unfold decode at h
  split at h
  · cases h
  next u hu =>
    split at h
    next j hj =>
      cases h
      obtain rfl := toInstr_eq_some hj
      exact buildExecutable_cases hu
    · cases h

/-- The decoder's answer from the resolver's, when an instruction has that operation and the word's fields. -/
theorem decode_of_resolveName {w : Word} {i : Instr} (ho : resolveName w = .ok i.op)
    (hf : i.fields = decodeFields w) : decode w = .ok i := by
  have hu : buildExecutable w = .ok i.toUnit := by
    simp only [buildExecutable, ho, ← hf]
    rfl
  simp only [decode, hu, toInstr_toUnit]

/-- A word the resolver rejects is rejected by the decoder. -/
theorem decode_of_resolveName_error {w : Word} {e : DecodeError} (h : resolveName w = .error e) :
    decode w = .error e := by
  simp only [decode, buildExecutable, h]

end Sys2Proof
end

