-- ==== Sys2Proof/Laws/State.lean ====
section
/-! SUPPORT. One lemma per field per update, true by rfl, so that no later proof unfolds a record update; and
reading a register after a write. -/

namespace Sys2Proof.Machine

@[simp] theorem launch_regs (r : Vector Word 32) (ws : List Word) : (State.launch r ws).regs = r := rfl
@[simp] theorem launch_pc (r : Vector Word 32) (ws : List Word) : (State.launch r ws).pc = 0 := rfl
@[simp] theorem launch_stream (r : Vector Word 32) (ws : List Word) : (State.launch r ws).stream = ws := rfl
@[simp] theorem launch_executed (r : Vector Word 32) (ws : List Word) : (State.launch r ws).executed = 0 := rfl
@[simp] theorem launch_status (r : Vector Word 32) (ws : List Word) :
    (State.launch r ws).status = if ws = [] then .halted else .running := rfl

@[simp] theorem writeReg_pc (s : State) (r : RegIdx) (v : Word) : (s.writeReg r v).pc = s.pc := rfl
@[simp] theorem writeReg_stream (s : State) (r : RegIdx) (v : Word) : (s.writeReg r v).stream = s.stream := rfl
@[simp] theorem writeReg_executed (s : State) (r : RegIdx) (v : Word) :
    (s.writeReg r v).executed = s.executed := rfl
@[simp] theorem writeReg_status (s : State) (r : RegIdx) (v : Word) : (s.writeReg r v).status = s.status := rfl

@[simp] theorem advancePc_pc (s : State) : s.advancePc.pc = s.pc + 4 := rfl
@[simp] theorem advancePc_regs (s : State) : s.advancePc.regs = s.regs := rfl
@[simp] theorem advancePc_stream (s : State) : s.advancePc.stream = s.stream := rfl
@[simp] theorem advancePc_executed (s : State) : s.advancePc.executed = s.executed := rfl
@[simp] theorem advancePc_status (s : State) : s.advancePc.status = s.status := rfl
@[simp] theorem advancePc_readReg (s : State) (r : RegIdx) : s.advancePc.readReg r = s.readReg r := rfl

@[simp] theorem consumeWord_regs (s : State) : s.consumeWord.regs = s.regs := rfl
@[simp] theorem consumeWord_pc (s : State) : s.consumeWord.pc = s.pc := rfl
@[simp] theorem consumeWord_stream (s : State) : s.consumeWord.stream = s.stream := rfl
@[simp] theorem consumeWord_executed (s : State) : s.consumeWord.executed = s.executed + 1 := rfl
@[simp] theorem consumeWord_status (s : State) :
    s.consumeWord.status = if s.executed + 1 < s.stream.length then .running else .halted := rfl
@[simp] theorem consumeWord_readReg (s : State) (r : RegIdx) : s.consumeWord.readReg r = s.readReg r := rfl

@[simp] theorem presentWord_regs (s : State) (w : Word) : (s.presentWord w).regs = s.regs := rfl
@[simp] theorem presentWord_pc (s : State) (w : Word) : (s.presentWord w).pc = s.pc := rfl
@[simp] theorem presentWord_executed (s : State) (w : Word) : (s.presentWord w).executed = s.executed := rfl
@[simp] theorem presentWord_status (s : State) (w : Word) : (s.presentWord w).status = .running := rfl

@[simp] theorem stop_regs (s : State) (f : Fault) : (s.stop f).regs = s.regs := by cases f <;> rfl
@[simp] theorem stop_pc (s : State) (f : Fault) : (s.stop f).pc = s.pc := by cases f <;> rfl
@[simp] theorem stop_stream (s : State) (f : Fault) : (s.stop f).stream = s.stream := by cases f <;> rfl
@[simp] theorem stop_executed (s : State) (f : Fault) : (s.stop f).executed = s.executed := by cases f <;> rfl
@[simp] theorem stop_decodeError_status (s : State) (e : DecodeError) (w pc : Word) :
    (s.stop (.decodeError e w pc)).status = .faulted e w pc := rfl
@[simp] theorem stop_streamExhausted_status (s : State) : (s.stop .streamExhausted).status = .halted := rfl

/-- A read after a write: the value at the register written, the old value at every other, register 0 not
excepted (spec 10_state.md R23). -/
@[simp] theorem readReg_writeReg (s : State) (d r : RegIdx) (v : Word) :
    (s.writeReg d v).readReg r = if r = d then v else s.readReg r := by
  simp only [State.readReg, State.writeReg, Vector.getElem_set, BitVec.toNat_inj, eq_comm (a := d)]

/-- Equal register files read equal. -/
theorem readReg_congr {s t : State} (h : s.regs = t.regs) (r : RegIdx) : s.readReg r = t.readReg r := by
  simp only [State.readReg, h]

/-- A state is its fields, the register file taken register by register. -/
theorem State.ext_readReg {s t : State} (hr : ∀ r, s.readReg r = t.readReg r) (hp : s.pc = t.pc)
    (hs : s.stream = t.stream) (he : s.executed = t.executed) (hst : s.status = t.status) : s = t := by
  obtain ⟨regs, _, _, _, _⟩ := s
  obtain ⟨regs', _, _, _, _⟩ := t
  have hregs : regs = regs' := by
    refine Vector.ext fun i hi => ?_
    have := hr (BitVec.ofNat 5 i)
    simpa [State.readReg, Nat.mod_eq_of_lt (show i < 32 from hi)] using this
  simp_all

end Sys2Proof.Machine
end

