-- ==== Sys2Proof/Laws/Ops.lean ====
section
/-! SUPPORT. One spec lemma per shared operation: what it can do, said once. -/

namespace Sys2Proof.Machine

/-- Retiring an instruction always answers a next state, and that state is `s` with one register written and
the pc advanced. Every meaning ends in `retire`, so every frame and result follows from this. -/
theorem retire_writesOnly (s : State) (d : RegIdx) (v : Word) :
    ∃ t, s.retire d v = .next t ∧ WritesOnly d v s t := by
  exact ⟨_, rfl, fun r => by rw [advancePc_readReg, readReg_writeReg], rfl, rfl, rfl, rfl⟩

/-- The inverse reading of `retire_writesOnly`. -/
theorem retire_cases {s t : State} {d : RegIdx} {v : Word} (h : s.retire d v = .next t) :
    WritesOnly d v s t := by
  obtain ⟨t', ht, hw⟩ := retire_writesOnly s d v
  rw [h] at ht
  cases ht
  exact hw

/-- The value an instruction writes, as its meaning computes it. A lemma about all ten meanings can then be
said once. -/
def resultOf (s : State) : Instr → Word
  | .sll f => shl32 (s.readReg f.rt) (shiftCount f.shamt)
  | .sra f => sar32 (s.readReg f.rt) (shiftCount f.shamt)
  | .add f => add32 (s.readReg f.rt) (s.readReg f.rs)
  | .sub f => sub32 (s.readReg f.rs) (s.readReg f.rt)
  | .and f => s.readReg f.rt &&& s.readReg f.rs
  | .or f => s.readReg f.rt ||| s.readReg f.rs
  | .nor f => ~~~(s.readReg f.rt ||| s.readReg f.rs)
  | .addi f => add32 (s.readReg f.rs) (sext32 f.imm)
  | .andi f => s.readReg f.rs &&& zext32 f.imm
  | .ori f => s.readReg f.rs ||| zext32 f.imm

/-- Every meaning retires its result to its destination. -/
theorem exec_eq_retire (i : Instr) (s : State) : exec i s = s.retire (dest i.fields) (resultOf s i) := by
  cases i <;> rfl

/-- The inverse reading: what an instruction's next state is. -/
theorem exec_cases {i : Instr} {s t : State} (h : exec i s = .next t) :
    WritesOnly (dest i.fields) (resultOf s i) s t := by
  rw [exec_eq_retire] at h
  exact retire_cases h

/-- Taking a word leaves every register. -/
theorem resultOf_consumeWord (s : State) (i : Instr) : resultOf s.consumeWord i = resultOf s i := by
  cases i <;> rfl

/-! The second reading of Safety.lean, in the decoder's and the library's words. -/

theorem bitsAt_eq_extractLsb' (w : Word) (lo n : Nat) : bitsAt w lo n = w.extractLsb' lo n := by
  apply BitVec.eq_of_toNat_eq
  simp [bitsAt, BitVec.extractLsb', Nat.shiftRight_eq_div_pow]

theorem bitsAt_toNat (w : Word) (lo n : Nat) : (bitsAt w lo n).toNat = w.toNat / 2 ^ lo % 2 ^ n := by
  simp [bitsAt]

theorem opcodeOf_eq_bitsAt (w : Word) : opcodeOf w = bitsAt w 26 6 := by
  rw [bitsAt_eq_extractLsb']
  rfl

theorem functOf_eq_bitsAt (w : Word) : functOf w = bitsAt w 0 6 := by
  rw [bitsAt_eq_extractLsb']
  rfl

theorem rFieldsByPosition_eq (w : Word) : rFieldsByPosition w = rFieldsOf w := by
  simp only [rFieldsByPosition, bitsAt_eq_extractLsb']
  rfl

theorem iFieldsByPosition_eq (w : Word) : iFieldsByPosition w = iFieldsOf w := by
  simp only [iFieldsByPosition, bitsAt_eq_extractLsb']
  rfl

/-- The architectural state after a write, in the second reading's words. -/
theorem arch_of_writesOnly {s t : State} {d : RegIdx} {v : Word} (h : WritesOnly d v s t) :
    t.arch = s.arch.put d v := by
  obtain ⟨h1, h2, _⟩ := h
  simp only [State.arch, ArchState.put, h2]
  congr 1
  funext r
  exact h1 r

end Sys2Proof.Machine
end

