-- ==== Sys2Proof/Laws/PerInstr.lean ====
section
/-! SUPPORT. Statements made per instruction. UnitPairing: the Executable Unit of an instruction is well formed (its
operation and its fields are of one format, spec 30_encoding.md R66, R76) and is read back as the instruction. -/

namespace Sys2Proof.Laws.UnitPairing

/-- The instruction's unit is well formed and is read back as the instruction. -/
def Statement (i : Instr) : Prop := i.toUnit.wellFormed = true ∧ i.toUnit.toInstr = some i

theorem sll (f : RFields) : Statement (.sll f) := ⟨rfl, rfl⟩
theorem sra (f : RFields) : Statement (.sra f) := ⟨rfl, rfl⟩
theorem add (f : RFields) : Statement (.add f) := ⟨rfl, rfl⟩
theorem sub (f : RFields) : Statement (.sub f) := ⟨rfl, rfl⟩
theorem and (f : RFields) : Statement (.and f) := ⟨rfl, rfl⟩
theorem or (f : RFields) : Statement (.or f) := ⟨rfl, rfl⟩
theorem nor (f : RFields) : Statement (.nor f) := ⟨rfl, rfl⟩
theorem addi (f : IFields) : Statement (.addi f) := ⟨rfl, rfl⟩
theorem andi (f : IFields) : Statement (.andi f) := ⟨rfl, rfl⟩
theorem ori (f : IFields) : Statement (.ori f) := ⟨rfl, rfl⟩

end Sys2Proof.Laws.UnitPairing
end

