-- ==== Sys2Proof/Laws/Step.lean ====
section
/-! SUPPORT. What a step can do, said once. -/

namespace Sys2Proof.Machine

/-- The supply answers a word only in a running run, and then it is the next word of the stream. -/
theorem nextWord_ok_iff {s : State} {w : Word} :
    s.nextWord = .ok w ↔ s.status = .running ∧ s.stream[s.executed]? = some w := by
  unfold State.nextWord
  split
  · simp_all
  · simp_all
  · split <;> simp_all

/-- A step that answers a next state took a legal word of a running run, and executed it from the state with
the word taken. -/
theorem step_next_cases {s t : State} (h : step s = .next t) :
    ∃ w i, s.status = .running ∧ s.stream[s.executed]? = some w ∧ decode w = .ok i ∧
      exec i s.consumeWord = .next t := by
  unfold step at h
  split at h
  · cases h
  next w hw =>
    split at h
    · cases h
    next i hi =>
      obtain ⟨hr, hs⟩ := nextWord_ok_iff.mp hw
      exact ⟨w, i, hr, hs, hi, h⟩

end Sys2Proof.Machine
end

