-- ==== Sys2Proof/Laws/Run.lean ====
section
/-! SUPPORT. The run's induction, packaged once. -/

namespace Sys2Proof.Machine

/-- A property that every step keeps, and that stopping on a step's fault keeps, holds after the run's steps. -/
theorem drive_invariant (P : State → Prop) (hnext : ∀ s t, P s → step s = .next t → P t)
    (hstop : ∀ s f, P s → step s = .fault f → P (s.stop f)) (n : Nat) (s : State) (h : P s) :
    P (drive n s) := by
  induction n generalizing s with
  | zero => exact h
  | succ n ih =>
    unfold drive
    split
    next t ht => exact ih t (hnext s t h ht)
    next f hf => exact hstop s f h hf
    next => exact h

/-- Packaged for the whole run. -/
theorem run_invariant (P : State → Prop) (hnext : ∀ s t, P s → step s = .next t → P t)
    (hstop : ∀ s f, P s → step s = .fault f → P (s.stop f)) (s : State) (h : P s) : P (run s) :=
  drive_invariant P hnext hstop _ s h

/-- A run whose first step faults stops there. -/
theorem run_of_fault {s : State} {f : Fault} (h : step s = .fault f) : run s = s.stop f := by
  simp only [run, drive, h]

end Sys2Proof.Machine
end

