-- ==== Sys2Proof/Tests/Slice0.lean ====
section
/-! SUPPORT. Tests, with expected results from spec/95_test_vectors.md or by hand from the rules named, and a witness for
the hypotheses of each statement that has some. -/

namespace Sys2Proof.Tests
open Sys2Proof Sys2Proof.Machine

/-- A launched state with the named registers written and one word to execute. -/
def launched (regs : List (RegIdx × Word)) (w : Word) : State :=
  regs.foldl (fun s rv => s.writeReg rv.1 rv.2) (State.launch (Vector.replicate 32 0) [w])

/-- One step's register `r` and pc. -/
def after (s : State) (r : RegIdx) : Option (Word × Word) :=
  match step s with
  | .next t => some (t.readReg r, t.pc)
  | .fault _ => none
  | .refused _ => none

/-- One step's fault. -/
def faultOf (s : State) : Option Fault :=
  match step s with
  | .next _ => none
  | .fault f => some f
  | .refused _ => none

/-! WellFormed: an ill-formed term for each check, refused, and a well-formed one beside it. -/

theorem test_bad_range_refused : validRange 5 10 = false ∧ validRange 32 0 = false ∧ validRange 0 (-1) = false ∧
    validRange 31 0 = true ∧ validRange 0 0 = true := by decide
theorem test_opcode_zero_refused_by_encI : immediateOpcode 0 = false ∧ immediateOpcode 1 = true := by decide
theorem test_mismatched_unit_refused :
    ({ op := .addi, fields := .reg { rs := 0, rt := 0, rd := 0, shamt := 0 } } : ExecUnit).wellFormed = false ∧
    ({ op := .sll, fields := .imm { rs := 0, rt := 0, imm := 0 } } : ExecUnit).wellFormed = false ∧
    ({ op := .sll, fields := .imm { rs := 0, rt := 0, imm := 0 } } : ExecUnit).toInstr = none ∧
    ({ op := .sll, fields := .reg { rs := 0, rt := 0, rd := 0, shamt := 0 } } : ExecUnit).wellFormed = true := by
  decide

/-! The extractor (95_test_vectors.md section 2.2). -/

theorem test_extract : extract 0xDEADBEEF 31 26 = 0x37 ∧ extract 0xDEADBEEF 10 6 = 0x1B ∧
    extract 0xDEADBEEF 15 0 = 0xBEEF ∧ extract 0xDEADBEEF 31 31 = 1 := by decide
theorem test_extractChecked_names_the_bad_range :
    (extractChecked 0xDEADBEEF 5 10).toOption = none ∧ (extractChecked 0xDEADBEEF 32 0).toOption = none ∧
    (extractChecked 0xDEADBEEF 10 6).toOption = some 0x1B := by decide

/-! Every constructor's decoding, by a word written out field by field from 30_encoding.md R81. -/

theorem test_decode_sll : decode 0b000000_00000_01001_01000_00100_000000 =
    .ok (.sll { rs := 0, rt := 9, rd := 8, shamt := 4 }) := by rfl
theorem test_decode_sra : decode 0b000000_00111_01001_01000_00010_000011 =
    .ok (.sra { rs := 7, rt := 9, rd := 8, shamt := 2 }) := by rfl
theorem test_decode_add : decode 0b000000_01001_01010_01000_00101_100000 =
    .ok (.add { rs := 9, rt := 10, rd := 8, shamt := 5 }) := by rfl
theorem test_decode_sub : decode 0b000000_00111_01000_01001_00000_100010 =
    .ok (.sub { rs := 7, rt := 8, rd := 9, shamt := 0 }) := by rfl
theorem test_decode_and : decode 0b000000_01001_01010_01000_11111_100100 =
    .ok (.and { rs := 9, rt := 10, rd := 8, shamt := 31 }) := by rfl
theorem test_decode_or : decode 0b000000_10001_10010_10011_10100_100101 =
    .ok (.or { rs := 17, rt := 18, rd := 19, shamt := 20 }) := by rfl
theorem test_decode_nor : decode 0b000000_11111_11111_11111_11111_100111 =
    .ok (.nor { rs := 31, rt := 31, rd := 31, shamt := 31 }) := by rfl
theorem test_decode_addi : decode 0b001000_00101_00110_1000000000000000 =
    .ok (.addi { rs := 5, rt := 6, imm := 0x8000 }) := by rfl
theorem test_decode_andi : decode 0b001100_01001_01000_1111111100000000 =
    .ok (.andi { rs := 9, rt := 8, imm := 0xFF00 }) := by rfl
theorem test_decode_ori : decode 0b001101_11111_00001_1111111111111111 =
    .ok (.ori { rs := 31, rt := 1, imm := 0xFFFF }) := by rfl

/-- Words that other MIPS machines know and this hardware does not (95_test_vectors.md section 2.1): SRL, SYSCALL,
SYNC, ADDU, SLT; J, BEQ, LUI, LW, SW, XORI, ADDIU. -/
theorem test_decode_rejects :
    ([0x00000002, 0x0000000C, 0x0000000F, 0x00000021, 0x0000002A, 0x08000000, 0x10000000, 0x3C010001, 0x8C220000,
      0xAC220000, 0x38000000, 0x24000000] : List Word).all (fun w => !legal w) = true := by decide

/-- The encoder's words (95_test_vectors.md section 2.3). -/
theorem test_encode :
    encode (.or { rs := 17, rt := 18, rd := 19, shamt := 20 }) = 0x02329D25 ∧
    encode (.sll { rs := 31, rt := 0, rd := 31, shamt := 31 }) = 0x03E0FFC0 ∧
    encode (.addi { rs := 5, rt := 6, imm := 0x8000 }) = 0x20A68000 ∧
    encode (.ori { rs := 31, rt := 1, imm := 0xFFFF }) = 0x37E1FFFF := by decide

/-! One step for each instruction (95_test_vectors.md section 3). -/

theorem test_sll_zero_fills_and_ignores_rs :
    after (launched [(9, 0x00000003), (31, 0x7FFFFFFF)] 0x03E94100) 8 = some (0x00000030, 4) := by decide
theorem test_sll_loses_the_sign_bit : after (launched [(9, 0x80000001)] 0x00094040) 8 = some (0x00000002, 4) := by
  decide
theorem test_sra_floors : after (launched [(9, 0xFFFFFFFB)] 0x00094043) 8 = some (0xFFFFFFFD, 4) := by decide
theorem test_sra_by_31 : after (launched [(9, 0x80000000)] 0x000947C3) 8 = some (0xFFFFFFFF, 4) := by decide
theorem test_add_wraps : after (launched [(9, 0x7FFFFFFF), (10, 1)] 0x012A4020) 8 = some (0x80000000, 4) := by decide
theorem test_add_into_register_zero : after (launched [(9, 3), (10, 4)] 0x012A0020) 0 = some (7, 4) := by decide
theorem test_sub_order : after (launched [(7, 12), (8, 5)] 0x00E84822) 9 = some (7, 4) := by decide
theorem test_sub_source_is_destination : after (launched [(9, 10), (10, 3)] 0x012A4822) 9 = some (7, 4) := by decide
theorem test_and : after (launched [(9, 0xF0F0F0F0), (10, 0xFF00FF00)] 0x012A4024) 8 = some (0xF000F000, 4) := by decide
theorem test_or : after (launched [(9, 0xF0F0F0F0), (10, 0xFF00FF00)] 0x012A4025) 8 = some (0xFFF0FFF0, 4) := by decide
theorem test_nor : after (launched [(9, 0xF0F0F0F0), (10, 0xFF00FF00)] 0x012A4027) 8 = some (0x000F000F, 4) := by decide
theorem test_addi_sign_extends : after (launched [(9, 0x80000000)] 0x2128FFFF) 8 = some (0x7FFFFFFF, 4) := by decide
theorem test_addi_same_register : after (launched [(5, 0x29)] 0x20A50001) 5 = some (0x2A, 4) := by decide
theorem test_andi_zero_extends : after (launched [(9, 0xFFFFFFFF)] 0x31288000) 8 = some (0x00008000, 4) := by decide
theorem test_ori_zero_extends : after (launched [] 0x3401FF00) 1 = some (0x0000FF00, 4) := by decide

/-! The step, the supply and the host's names. -/

theorem test_illegal_word_faults : faultOf (launched [(1, 0x100)] 0x8C220000) =
    some (.decodeError .unrecognizedEncoding 0x8C220000 0) := by decide
theorem test_last_word_halts : (match step (launched [] 0x00000020) with
    | .next t => t.status
    | .fault _ => .running
    | .refused _ => .running) = .halted := by decide
theorem test_reset_is_halted_with_no_words : State.reset.status = .halted ∧ State.reset.pc = 0 ∧
    State.reset.readReg 31 = 0 ∧ faultOf State.reset = some .streamExhausted := by decide
theorem test_withFetchWord_runs_the_word :
    after (State.reset.withFetchWord 32 0x20000005) 0 = some (5, 4) := by decide
theorem test_withFetchWord_past_the_stream :
    after ({ State.reset with executed := 3 }.withFetchWord 32 0x20000005) 0 = some (5, 4) := by decide
theorem test_decodeTableWord : decodeTableWord 32 0x012A4020 =
    some (.add { rs := 9, rt := 10, rd := 8, shamt := 0 }) ∧ decodeTableWord 32 0x00000001 = none := by decide
theorem test_pc_wraps : after { launched [] 0x00000000 with pc := 0xFFFFFFFC } 0 = some (0, 0) := by decide
theorem test_wordAtOffset : (launched [] 0x20000005).wordAtOffset 0 = some 0x20000005 ∧
    (launched [] 0x20000005).wordAtOffset 4 = none ∧ (launched [] 0x20000005).wordAtOffset 2 = none := by decide

/-! Witnesses: for each statement with hypotheses, values that meet them, one for each clause. -/

theorem witness_ExtractReturnsTheBitsOfTheRange :
    ((0 : Nat) ≤ 31 ∧ (31 : Nat) ≤ 31) ∧ ((31 : Nat) ≤ 31 ∧ (31 : Nat) ≤ 31) ∧ ((0 : Nat) ≤ 0 ∧ (0 : Nat) ≤ 31) := by
  decide
theorem witness_BadBitRangeIsMalformedFieldRange :
    ((9 : Int) < 10 ∨ (10 : Int) < 0 ∨ (31 : Int) < 9) ∧ ((0 : Int) < -1 ∨ (-1 : Int) < 0 ∨ (31 : Int) < 0) ∧
    ((32 : Int) < 0 ∨ (0 : Int) < 0 ∨ (31 : Int) < 32) ∧ ((31 : Nat) ≤ 31 ∧ (31 : Nat) ≤ 31) := by decide
theorem witness_ResolverFollowsMaskAndMatch : ∀ op, resolveName 0x03FFFFFF ≠ .ok op := by
  intro op h
  have : resolveName 0x03FFFFFF = .error .unrecognizedEncoding := rfl
  rw [this] at h
  cases h
theorem witness_OpcodeMapRowsNeverOverlap :
    (⟨.ori, 0xFC000000, 0x34000000⟩ : OpRow) ∈ opcodeMap ∧
    (⟨.ori, 0xFC000000, 0x34000000⟩ : OpRow).covers 0x37FFFFFF = true := by decide
theorem witness_OperandBitsNeverSelect :
    (bitsAt 0x03FFFFE0 26 6 = bitsAt 0x00000020 26 6 ∧ bitsAt 0x00000020 26 6 = 0#6 ∧
      bitsAt 0x03FFFFE0 0 6 = bitsAt 0x00000020 0 6) ∧
    (bitsAt 0x23FFFFFF 26 6 = bitsAt 0x20000000 26 6 ∧ bitsAt 0x20000000 26 6 ≠ 0#6) := by decide
theorem witness_EncodedFieldsAreDecodedBack : immediateOpcode 1 = true ∧ immediateOpcode 63 = true := by decide
theorem witness_EncodeOfDecodeIsTheWord :
    decode 0x03FFFFE7 = .ok (.nor { rs := 31, rt := 31, rd := 31, shamt := 31 }) := by rfl
theorem witness_DispatcherPairsOperationWithItsFields :
    resolveName 0x37FFFFFF = .ok .ori ∧ resolveName 0xFFFFFFFF = .error .unrecognizedEncoding ∧
    buildExecutable 0x37FFFFFF = .ok { op := .ori, fields := .imm { rs := 31, rt := 31, imm := 0xFFFF } } :=
  ⟨rfl, rfl, rfl⟩
theorem witness_SllShiftsTargetLeftIntoRd : (0x03FFFFC0 : Word) &&& 0xFC00003F = 0x00000000 := by decide
theorem witness_SraShiftsTargetRightKeepingSign : (0x03FFFFC3 : Word) &&& 0xFC00003F = 0x00000003 ∧ 31 < 32 := by decide
theorem witness_AddWritesWrappedSumIntoRd : (0x03FFFFE0 : Word) &&& 0xFC00003F = 0x00000020 := by decide
theorem witness_SubWritesSourceMinusTargetIntoRd : (0x03FFFFE2 : Word) &&& 0xFC00003F = 0x00000022 := by decide
theorem witness_AndWritesBitwiseAndIntoRd : (0x03FFFFE4 : Word) &&& 0xFC00003F = 0x00000024 := by decide
theorem witness_OrWritesBitwiseOrIntoRd : (0x03FFFFE5 : Word) &&& 0xFC00003F = 0x00000025 := by decide
theorem witness_NorWritesComplementOfOrIntoRd : (0x03FFFFE7 : Word) &&& 0xFC00003F = 0x00000027 := by decide
theorem witness_AddiAddsSignedImmediateIntoRt : (0x23FFFFFF : Word) &&& 0xFC000000 = 0x20000000 := by decide
theorem witness_AndiMasksWithUnsignedImmediateIntoRt : (0x33FFFFFF : Word) &&& 0xFC000000 = 0x30000000 := by decide
theorem witness_OriSetsUnsignedImmediateBitsIntoRt : (0x37FFFFFF : Word) &&& 0xFC000000 = 0x34000000 := by decide
theorem witness_OnlyAddiSignExtends :
    decode 0x2128FFFF = .ok (.addi { rs := 9, rt := 8, imm := 0xFFFF }) ∧
    decode 0x3128FF00 = .ok (.andi { rs := 9, rt := 8, imm := 0xFF00 }) ∧
    decode 0x3528FF00 = .ok (.ori { rs := 9, rt := 8, imm := 0xFF00 }) ∧ 16 ≤ 31 ∧ 31 < 32 :=
  ⟨rfl, rfl, rfl, by decide, by decide⟩

/-- A running state at the end of the address range, with a register set and one legal word left. -/
def midRun : State := { launched [(1, 5)] 0x20200001 with pc := 0xFFFFFFFC }

theorem witness_ResultDependsOnSourceRegistersOnly :
    midRun.readReg 1 = (launched [(1, 5), (2, 9)] 0x20200001).readReg 1 ∧
    (∃ t, exec (.sra { rs := 0, rt := 1, rd := 3, shamt := 1 }) midRun = .next t) ∧
    (∃ t, exec (.sra { rs := 0, rt := 1, rd := 3, shamt := 1 }) (launched [(1, 5), (2, 9)] 0x20200001) = .next t) :=
  ⟨by decide, ⟨_, rfl⟩, ⟨_, rfl⟩⟩
theorem witness_StepExecutesTheDecodedWord : midRun.status = .running ∧ midRun.stream[midRun.executed]? = some 0x20200001 ∧
    decode 0x20200001 = .ok (.addi { rs := 1, rt := 0, imm := 1 }) := ⟨by decide, by decide, rfl⟩
theorem witness_UnrecognizedWordFaultsAndChangesNothing :
    (launched [] 0x00000001).status = .running ∧
    (launched [] 0x00000001).stream[(launched [] 0x00000001).executed]? = some 0x00000001 ∧
    buildExecutable 0x00000001 = .error .unrecognizedEncoding := ⟨by decide, by decide, rfl⟩
theorem witness_StepHasNoThirdOutcome : midRun.status = .running ∧
    midRun.stream[midRun.executed]? = some 0x20200001 := by decide
theorem witness_EndedRunTakesNoStep : State.reset.status = .halted ∧
    (run (launched [] 0x00000001)).status = .faulted .unrecognizedEncoding 0x00000001 0 := by decide
theorem witness_NothingWritesTheInstructionStream :
    (∃ t, exec (.addi { rs := 1, rt := 0, imm := 1 }) midRun = .next t) ∧ ∃ t, step midRun = .next t :=
  ⟨⟨_, rfl⟩, ⟨_, rfl⟩⟩
theorem witness_StepTakesOneWordAndWritesOneRegister : ∃ t, step midRun = .next t := ⟨_, rfl⟩

/-- A state with another past than `midRun`'s and the same registers, pc and next word. -/
def midRunLater : State := { midRun with stream := [0x00000020, 0x20200001, 0xFFFFFFFF], executed := 1 }

theorem witness_StepIgnoresInstructionHistory : midRun.status = .running ∧ midRunLater.status = .running ∧
    midRun.regs = midRunLater.regs ∧ midRun.pc = midRunLater.pc ∧
    midRun.stream[midRun.executed]? = some 0x20200001 ∧
    midRunLater.stream[midRunLater.executed]? = some 0x20200001 := by decide
theorem witness_EveryStepKeepsTheInvariant :
    (launched [(1, 5)] 0x20200001).Inv ∧ ∃ t, step (launched [(1, 5)] 0x20200001) = .next t := ⟨by decide, _, rfl⟩
theorem witness_RunKeepsTheInvariant : (launched [] 0x00000001).Inv := by decide
theorem witness_PcStaysAligned : midRun.PcAligned ∧
    (∃ t, exec (.addi { rs := 1, rt := 0, imm := 1 }) midRun = .next t) ∧ ∃ t, step midRun = .next t :=
  ⟨by decide, ⟨_, rfl⟩, ⟨_, rfl⟩⟩
theorem witness_WordAtThePcIsTheNextWord : (launched [] 0x20200001).Inv ∧ (launched [] 0x20200001).status = .running ∧
    (launched [] 0x20200001).stream.length ≤ 2 ^ 30 := by decide
theorem witness_StepRefinesTheMaskAndMatchReading :
    (midRun.status = .running ∧ midRun.stream[midRun.executed]? = some 0x20200001 ∧
      (specStep midRun.arch 0x20200001).isSome = true) ∧
    ((launched [] 0x00000001).status = .running ∧
      (launched [] 0x00000001).stream[(launched [] 0x00000001).executed]? = some 0x00000001 ∧
      (specStep (launched [] 0x00000001).arch 0x00000001).isSome = false) := by decide
theorem witness_EveryRunEndsWithinItsStream :
    (run (State.launch (Vector.replicate 32 0) [0x20200001])).status = .halted := by decide
theorem witness_SafeStreamRunsToItsEnd : safeStream [0x2001000C, 0x20020005, 0x00221822] = true := by decide
theorem witness_FirstIllegalWordEndsTheRun : safeStream [0x20010001] = true ∧ legal 0x8C220000 = false := by decide
theorem witness_RunsComposeInStreamOrder : safeStream [0x20010001, 0x000117C0] = true := by decide

end Sys2Proof.Tests
end

section
/-! Register 0 as an ordinary register (spec 10_state.md R23), from what every operation does to the register file. -/

namespace Sys2Proof.Machine

/-- The forward reading of `exec_cases` (40_execution_engine.md R106): every operation answers a next state,
so a sequence of operations is followed by taking each next state apart in turn. -/
theorem exec_writesOnly (i : Instr) (s : State) :
    ∃ t, exec i s = .next t ∧ WritesOnly (dest i.fields) (resultOf s i) s t := by
  rw [exec_eq_retire]
  exact retire_writesOnly s _ _

/-- What is written is what the destination register then holds, whichever register that is. -/
theorem WritesOnly.readReg_same {d : RegIdx} {v : Word} {s t : State} (h : WritesOnly d v s t) :
    t.readReg d = v := by
  obtain ⟨hread, -⟩ := h
  rw [hread d, if_pos rfl]

/-- The sign-extended immediate by its signed value (30_encoding.md R68). -/
theorem sext32_eq_ofInt (imm : Imm16) : sext32 imm = BitVec.ofInt 32 imm.toInt := rfl

/-- Settles O29: the ADDI writes its sum to register 0, and both operands of the ADD read that register. -/
theorem registerZeroKeepsWhatIsWritten : Obligations.RegisterZeroKeepsWhatIsWritten := by
  intro s imm d
  obtain ⟨t, haddi, hst⟩ := exec_writesOnly (.addi { rs := 0, rt := 0, imm := imm }) s
  obtain ⟨u, hadd, htu⟩ := exec_writesOnly (.add { rs := 0, rt := 0, rd := d, shamt := 0 }) t
  have hzero : t.readReg 0 = s.readReg 0 + BitVec.ofInt 32 imm.toInt := by
    rw [← sext32_eq_ofInt]
    exact hst.readReg_same
  have hd : u.readReg d = t.readReg 0 + t.readReg 0 := htu.readReg_same
  exact ⟨t, u, haddi, hzero, hadd, by rw [hd, hzero]⟩

end Sys2Proof.Machine
end

section
/-! The instruction stream as a read-only supply (spec 20_memory.md R51): kept by an operation, by a step, by a run. -/

namespace Sys2Proof.Machine

/-- No operation's write is a write to the stream. -/
theorem exec_next_stream {i : Instr} {s t : State} (h : exec i s = .next t) : t.stream = s.stream := by
  obtain ⟨-, -, hstream, -⟩ := exec_cases h
  exact hstream

/-- A step takes a word by counting it, and leaves it in the stream (20_memory.md R41). -/
theorem step_next_stream {s t : State} (h : step s = .next t) : t.stream = s.stream := by
  obtain ⟨_, i, -, -, -, hexec⟩ := step_next_cases h
  calc t.stream = s.consumeWord.stream := exec_next_stream hexec
    _ = s.stream := consumeWord_stream s

/-- Neither the steps of a run nor the fault that ends it change the stream. -/
theorem run_stream (s : State) : (run s).stream = s.stream := by
  refine run_invariant (fun u => u.stream = s.stream) ?_ ?_ s rfl
  · intro u t hu hstep
    exact (step_next_stream hstep).trans hu
  · intro u f hu _
    exact (stop_stream u f).trans hu

/-- Settles O36, from what an operation, a step and a run each keep. -/
theorem nothingWritesTheInstructionStream : Obligations.NothingWritesTheInstructionStream :=
  ⟨fun _ _ _ => exec_next_stream, fun _ _ => step_next_stream, run_stream⟩

end Sys2Proof.Machine
end

section
/-! The extractor, the format classifier and the field decoder by bit position (spec 30_encoding.md R61 to R66). -/

namespace Sys2Proof.Machine

/-- Settles O1: the extractor is the library's, whose value this is. -/
theorem extractReturnsTheBitsOfTheRange : Obligations.ExtractReturnsTheBitsOfTheRange := by
  intro w hi lo h
  rw [extract_eq_extractLsb, BitVec.extractLsb_toNat]

/-- The classifier's answer by the bits of the opcode (30_encoding.md R63). -/
theorem classify_eq_ite (w : Word) :
    classify w = if bitsAt w 26 6 = 0#6 then .registerFormat else .immediateFormat := by
  rw [classify, opcodeOf_eq_bitsAt]

/-- Settles O3. -/
theorem opcodeZeroIsRegisterFormat : Obligations.OpcodeZeroIsRegisterFormat := classify_eq_ite

theorem decodeFields_of_opcode_zero {w : Word} (h : bitsAt w 26 6 = 0#6) :
    decodeFields w = .reg (rFieldsByPosition w) := by
  rw [decodeFields, classify_eq_ite, if_pos h, rFieldsByPosition_eq]

theorem decodeFields_of_opcode_ne_zero {w : Word} (h : bitsAt w 26 6 ≠ 0#6) :
    decodeFields w = .imm (iFieldsByPosition w) := by
  rw [decodeFields, classify_eq_ite, if_neg h, iFieldsByPosition_eq]

/-- Settles O4: the classifier's tag, and one case of the field decoder for each format. -/
theorem fieldsStandAtTheirBitPositions : Obligations.FieldsStandAtTheirBitPositions := by
  intro w
  refine ⟨decodeFields_format w, ?_⟩
  split
  next h => exact decodeFields_of_opcode_zero h
  next h => exact decodeFields_of_opcode_ne_zero h

end Sys2Proof.Machine
end

section
/-! The encoders as sums of field values, and every field read back from its position (spec 30_encoding.md R70). -/

namespace Sys2Proof.Machine

/-- Concatenation places its left part above its right part, so that the value is a sum. -/
theorem toNat_append_eq_add {m n : Nat} (x : BitVec m) (y : BitVec n) :
    (x ++ y).toNat = x.toNat * 2 ^ n + y.toNat := by
  rw [BitVec.toNat_append, ← Nat.shiftLeft_add_eq_or_of_lt y.isLt, Nat.shiftLeft_eq]

theorem toNat_encR (f : Selector) (s t d : RegIdx) (h : Shamt) :
    (encR f s t d h).toNat =
      s.toNat * 2 ^ 21 + t.toNat * 2 ^ 16 + d.toNat * 2 ^ 11 + h.toNat * 2 ^ 6 + f.toNat := by
  simp only [encR, toNat_append_eq_add, BitVec.toNat_ofNat]
  omega

theorem toNat_encI (o : Selector) (s t : RegIdx) (i : Imm16) :
    (encI o s t i).toNat = o.toNat * 2 ^ 26 + s.toNat * 2 ^ 21 + t.toNat * 2 ^ 16 + i.toNat := by
  simp only [encI, toNat_append_eq_add]
  omega

/-- What stands at a position is told by the value of the word's digits there. -/
theorem bitsAt_eq_of_toNat {w : Word} {lo n : Nat} {x : BitVec n} (h : w.toNat / 2 ^ lo % 2 ^ n = x.toNat) :
    bitsAt w lo n = x :=
  BitVec.eq_of_toNat_eq ((bitsAt_toNat w lo n).trans h)

@[simp] theorem opcode_encR (f : Selector) (s t d : RegIdx) (h : Shamt) : bitsAt (encR f s t d h) 26 6 = 0#6 :=
  bitsAt_eq_of_toNat (by rw [toNat_encR, BitVec.toNat_ofNat]; omega)

@[simp] theorem funct_encR (f : Selector) (s t d : RegIdx) (h : Shamt) : bitsAt (encR f s t d h) 0 6 = f :=
  bitsAt_eq_of_toNat (by rw [toNat_encR]; omega)

@[simp] theorem rFieldsByPosition_encR (f : Selector) (s t d : RegIdx) (h : Shamt) :
    rFieldsByPosition (encR f s t d h) = { rs := s, rt := t, rd := d, shamt := h } := by
  have hrs : bitsAt (encR f s t d h) 21 5 = s := bitsAt_eq_of_toNat (by rw [toNat_encR]; omega)
  have hrt : bitsAt (encR f s t d h) 16 5 = t := bitsAt_eq_of_toNat (by rw [toNat_encR]; omega)
  have hrd : bitsAt (encR f s t d h) 11 5 = d := bitsAt_eq_of_toNat (by rw [toNat_encR]; omega)
  have hshamt : bitsAt (encR f s t d h) 6 5 = h := bitsAt_eq_of_toNat (by rw [toNat_encR]; omega)
  rw [rFieldsByPosition, hrs, hrt, hrd, hshamt]

@[simp] theorem opcode_encI (o : Selector) (s t : RegIdx) (i : Imm16) : bitsAt (encI o s t i) 26 6 = o :=
  bitsAt_eq_of_toNat (by rw [toNat_encI]; omega)

@[simp] theorem iFieldsByPosition_encI (o : Selector) (s t : RegIdx) (i : Imm16) :
    iFieldsByPosition (encI o s t i) = { rs := s, rt := t, imm := i } := by
  have hrs : bitsAt (encI o s t i) 21 5 = s := bitsAt_eq_of_toNat (by rw [toNat_encI]; omega)
  have hrt : bitsAt (encI o s t i) 16 5 = t := bitsAt_eq_of_toNat (by rw [toNat_encI]; omega)
  have himm : bitsAt (encI o s t i) 0 16 = i := bitsAt_eq_of_toNat (by rw [toNat_encI]; omega)
  rw [iFieldsByPosition, hrs, hrt, himm]

/-- Opcode 0 makes the field decoder answer the register format's fields. -/
theorem decodeFields_encR (f : Selector) (s t d : RegIdx) (h : Shamt) :
    decodeFields (encR f s t d h) = .reg { rs := s, rt := t, rd := d, shamt := h } := by
  rw [decodeFields_of_opcode_zero (opcode_encR f s t d h), rFieldsByPosition_encR]

/-- The hypothesis is needed: under opcode 0 the fields would be read in register format. -/
theorem decodeFields_encI {o : Selector} (s t : RegIdx) (i : Imm16) (ho : immediateOpcode o = true) :
    decodeFields (encI o s t i) = .imm { rs := s, rt := t, imm := i } := by
  have hne : bitsAt (encI o s t i) 26 6 ≠ 0#6 := by
    rw [opcode_encI]
    exact of_decide_eq_true ho
  rw [decodeFields_of_opcode_ne_zero hne, iFieldsByPosition_encI]

/-- Settles O10, from the encoders' values and from the fields read back. -/
theorem encodedFieldsAreDecodedBack : Obligations.EncodedFieldsAreDecodedBack :=
  ⟨fun f s t d h => ⟨toNat_encR f s t d h, decodeFields_encR f s t d h, funct_encR f s t d h⟩,
    fun o s t i ho => ⟨toNat_encI o s t i, decodeFields_encI s t i ho, opcode_encI o s t i⟩⟩

end Sys2Proof.Machine
end

section
/-! The resolver by mask and match (spec 30_encoding.md R71, R72). The match of an operation is its selector's
encoding with every operand field 0. -/

namespace Sys2Proof

/-- The selector value of an operation's row in the resolution table (30_encoding.md R71): its function code in
register format, its opcode in immediate format. -/
def OpName.selector : OpName → Selector
  | .sll => 0b000000
  | .sra => 0b000011
  | .add => 0b100000
  | .sub => 0b100010
  | .and => 0b100100
  | .or => 0b100101
  | .nor => 0b100111
  | .addi => 0b001000
  | .andi => 0b001100
  | .ori => 0b001101

/-- The register-format half of the table holds its own selectors and nothing else. -/
theorem opOfFunct_eq_some_iff {f : Selector} {op : OpName} :
    opOfFunct f = some op ↔ op.format = .registerFormat ∧ f = op.selector := by
  constructor
  · intro h
    refine ⟨opOfFunct_format h, ?_⟩
    unfold opOfFunct at h
    split at h <;> cases h <;> rfl
  · rintro ⟨hformat, rfl⟩
    cases op <;> cases hformat <;> rfl

/-- The immediate-format half of the table holds its own selectors and nothing else. -/
theorem opOfOpcode_eq_some_iff {o : Selector} {op : OpName} :
    opOfOpcode o = some op ↔ op.format = .immediateFormat ∧ o = op.selector := by
  constructor
  · intro h
    refine ⟨opOfOpcode_format h, ?_⟩
    unfold opOfOpcode at h
    split at h <;> cases h <;> rfl
  · rintro ⟨hformat, rfl⟩
    cases op <;> cases hformat <;> rfl

/-- No immediate-format row stands under opcode 0, which selects register format (30_encoding.md R63). -/
theorem OpName.selector_ne_zero {op : OpName} (h : op.format = .immediateFormat) : op.selector ≠ 0#6 := by
  cases op <;> cases h <;> decide

/-- When the resolver answers a register-format operation. -/
theorem resolveName_register_iff {w : Word} {op : OpName} (h : op.format = .registerFormat) :
    resolveName w = .ok op ↔ opcodeOf w = 0#6 ∧ functOf w = op.selector := by
  simp [resolveName_ok_iff, opOfFunct_eq_some_iff, opOfOpcode_eq_some_iff, h]

/-- When the resolver answers an immediate-format operation. -/
theorem resolveName_immediate_iff {w : Word} {op : OpName} (h : op.format = .immediateFormat) :
    resolveName w = .ok op ↔ opcodeOf w = op.selector := by
  have hne : opcodeOf w = op.selector → opcodeOf w ≠ 0#6 := fun hw => hw ▸ OpName.selector_ne_zero h
  simpa [resolveName_ok_iff, opOfFunct_eq_some_iff, opOfOpcode_eq_some_iff, h] using hne

end Sys2Proof

namespace Sys2Proof.Machine

/-- With every operand field 0, encoding sets no bit outside the register-format mask. -/
theorem encR_zero_fields_and_mask : ∀ f : Selector, encR f 0 0 0 0 &&& 0xFC00003F = encR f 0 0 0 0 := by decide

/-- With every operand field 0, encoding sets no bit outside the immediate-format mask. -/
theorem encI_zero_fields_and_mask : ∀ o : Selector, encI o 0 0 0 &&& 0xFC000000 = encI o 0 0 0 := by decide

theorem resolveName_iff_rMask {w : Word} {op : OpName} (h : op.format = .registerFormat) :
    resolveName w = .ok op ↔ w &&& 0xFC00003F = encR op.selector 0 0 0 0 := by
  rw [resolveName_register_iff h, rMask_iff (encR_zero_fields_and_mask _), opcodeOf_eq_bitsAt (encR ..),
    functOf_eq_bitsAt (encR ..), opcode_encR, funct_encR]

theorem resolveName_iff_iMask {w : Word} {op : OpName} (h : op.format = .immediateFormat) :
    resolveName w = .ok op ↔ w &&& 0xFC000000 = encI op.selector 0 0 0 := by
  rw [resolveName_immediate_iff h, iMask_iff (encI_zero_fields_and_mask _), opcodeOf_eq_bitsAt (encI ..), opcode_encI]

/-- Settles O5: each row's match is its selector encoded, and the resolver has one error. -/
theorem resolverFollowsMaskAndMatch : Obligations.ResolverFollowsMaskAndMatch := by
  refine ⟨fun w op => ?_, fun w h => ?_⟩
  · cases op with
    | sll | sra | add | sub | and | or | nor => exact resolveName_iff_rMask rfl
    | addi | andi | ori => exact resolveName_iff_iMask rfl
  · cases hw : resolveName w with
    | ok op => exact absurd hw (h op)
    | error e => cases e; rfl

end Sys2Proof.Machine
end

section
/-! The immediate of a decoded word and its two extensions (spec 30_encoding.md R68). -/

namespace Sys2Proof.Machine

/-- The fields of a decoded immediate-format instruction are the word's, by position. -/
theorem decode_imm_fields {w : Word} {i : Instr} {f : IFields} (h : decode w = .ok i) (hi : i.fields = .imm f) :
    f = iFieldsByPosition w := by
  obtain ⟨-, hfields⟩ := decode_cases h
  rw [hi] at hfields
  by_cases hop : bitsAt w 26 6 = 0#6
  · rw [decodeFields_of_opcode_zero hop] at hfields
    cases hfields
  · rw [decodeFields_of_opcode_ne_zero hop] at hfields
    cases hfields
    rfl

theorem toInt_sext32 (imm : Imm16) : (sext32 imm).toInt = imm.toInt :=
  BitVec.toInt_signExtend_of_le (by decide)

theorem toNat_zext32 (imm : Imm16) : (zext32 imm).toNat = imm.toNat :=
  BitVec.toNat_setWidth_of_le (by decide)

/-- Above the immediate, sign extension copies bit 15. -/
theorem getLsbD_sext32_high (imm : Imm16) {k : Nat} (hlo : 16 ≤ k) (hhi : k < 32) :
    (sext32 imm).getLsbD k = imm.getLsbD 15 := by
  rw [sext32, BitVec.getLsbD_signExtend, if_neg (by omega), BitVec.msb_eq_getLsbD_last]
  simp [hhi]

/-- Above the immediate, zero extension clears. -/
theorem getLsbD_zext32_high (imm : Imm16) {k : Nat} (hlo : 16 ≤ k) : (zext32 imm).getLsbD k = false := by
  rw [zext32, BitVec.zeroExtend, BitVec.getLsbD_setWidth, BitVec.getLsbD_of_ge imm k hlo, Bool.and_false]

/-- What an operation leaves in its destination register is its result. -/
theorem exec_dest (i : Instr) (s : State) :
    ∃ t, exec i s = .next t ∧ t.readReg (dest i.fields) = resultOf s i := by
  obtain ⟨t, hexec, hwrites⟩ := exec_writesOnly i s
  exact ⟨t, hexec, hwrites.readReg_same⟩

/-- Settles O26: where the immediate stands, what the two extensions are, and which operation uses which. -/
theorem onlyAddiSignExtends : Obligations.OnlyAddiSignExtends := by
  refine ⟨?position, ?extensions, ?use⟩
  case position =>
    rintro w f (h | h | h) <;> rw [decode_imm_fields h rfl] <;> rfl
  case extensions =>
    exact fun imm => ⟨toInt_sext32 imm, toNat_zext32 imm,
      fun k hlo hhi => ⟨getLsbD_sext32_high imm hlo hhi, getLsbD_zext32_high imm hlo⟩⟩
  case use =>
    intro f s
    obtain ⟨t, haddi, ht⟩ := exec_dest (.addi f) s
    obtain ⟨u, handi, hu⟩ := exec_dest (.andi f) s
    obtain ⟨v, hori, hv⟩ := exec_dest (.ori f) s
    exact ⟨t, u, v, haddi, ht, handi, hu, hori, hv⟩

end Sys2Proof.Machine
end

section
/-! Sums and differences modulo 2^32 (spec 40_execution_engine.md R105). A word is the wrap of its unsigned value and
of its signed value alike, and wrapping commutes with sum and difference; so both readings give the same word. -/

namespace Sys2Proof.Machine

/-- A word is the wrap of its unsigned value, as it is of its signed one (`BitVec.ofInt_toInt`). -/
theorem ofInt_toNat (a : Word) : BitVec.ofInt 32 a.toNat = a := by
  rw [BitVec.ofInt_natCast, BitVec.ofNat_toNat, BitVec.setWidth_eq]

/-- Wrapping is the remainder modulo 2^32, for a negative value too. -/
theorem toNat_ofInt_eq_emod (x : Int) : ((BitVec.ofInt 32 x).toNat : Int) = x % 2 ^ 32 := by
  rw [BitVec.toNat_ofInt, Int.toNat_of_nonneg (Int.emod_nonneg x (by decide))]
  rfl

/-- Wrapping commutes with difference, as it does with sum (`BitVec.ofInt_add`). -/
theorem ofInt_sub_eq_sub32 (x y : Int) : BitVec.ofInt 32 (x - y) = sub32 (BitVec.ofInt 32 x) (BitVec.ofInt 32 y) := by
  rw [Int.sub_eq_add_neg, BitVec.ofInt_add, BitVec.ofInt_neg, ← BitVec.sub_eq_add_neg]
  rfl

theorem toNat_add32 (a b : Word) : (add32 a b).toNat = (a.toNat + b.toNat) % 2 ^ 32 := BitVec.toNat_add a b

theorem add32_eq_ofInt_toInt (a b : Word) : add32 a b = BitVec.ofInt 32 (a.toInt + b.toInt) := by
  rw [BitVec.ofInt_add, BitVec.ofInt_toInt, BitVec.ofInt_toInt, add32]

theorem sub32_eq_ofInt_toInt (a b : Word) : sub32 a b = BitVec.ofInt 32 (a.toInt - b.toInt) := by
  rw [ofInt_sub_eq_sub32, BitVec.ofInt_toInt, BitVec.ofInt_toInt]

/-- The borrow out of bit 31 is lost: the difference of the unsigned values may be negative. -/
theorem toNat_sub32 (a b : Word) : ((sub32 a b).toNat : Int) = ((a.toNat : Int) - (b.toNat : Int)) % 2 ^ 32 := by
  rw [← toNat_ofInt_eq_emod, ofInt_sub_eq_sub32, ofInt_toNat, ofInt_toNat]

theorem add32_sext32_eq_ofInt_toInt (a : Word) (imm : Imm16) :
    add32 a (sext32 imm) = BitVec.ofInt 32 (a.toInt + imm.toInt) := by
  rw [add32_eq_ofInt_toInt, toInt_sext32]

/-- The register by its unsigned value, the immediate by its signed one (43_immediate_alu.md R150). -/
theorem toNat_add32_sext32 (a : Word) (imm : Imm16) :
    ((add32 a (sext32 imm)).toNat : Int) = ((a.toNat : Int) + imm.toInt) % 2 ^ 32 := by
  rw [← toNat_ofInt_eq_emod, BitVec.ofInt_add, ofInt_toNat, ← sext32_eq_ofInt, add32]

/-- Settles O25: each operation writes its result and nothing else, and both readings give that result. -/
theorem arithmeticWrapsUnderBothReadings : Obligations.ArithmeticWrapsUnderBothReadings := by
  refine ⟨?add, ?sub, ?addi⟩
  case add =>
    intro f s
    obtain ⟨t, hexec, hwrites⟩ := exec_writesOnly (.add f) s
    exact ⟨t, _, hexec, hwrites, toNat_add32 _ _, add32_eq_ofInt_toInt _ _⟩
  case sub =>
    intro f s
    obtain ⟨t, hexec, hwrites⟩ := exec_writesOnly (.sub f) s
    exact ⟨t, _, hexec, hwrites, toNat_sub32 _ _, sub32_eq_ofInt_toInt _ _⟩
  case addi =>
    intro f s
    obtain ⟨t, hexec, hwrites⟩ := exec_writesOnly (.addi f) s
    exact ⟨t, _, hexec, hwrites, toNat_add32_sext32 _ _, add32_sext32_eq_ofInt_toInt _ _⟩

end Sys2Proof.Machine
end

section
/-! The frame of every operation (spec 40_execution_engine.md R102, R103). -/

namespace Sys2Proof.Machine

/-- Settles O27: the register written is the fields' destination, and its new value the operation's result. -/
theorem everyOperationWritesItsDestinationOnly : Obligations.EveryOperationWritesItsDestinationOnly := by
  intro i s
  obtain ⟨t, hexec, hwrites⟩ := exec_writesOnly i s
  exact ⟨t, resultOf s i, hexec, hwrites⟩

end Sys2Proof.Machine
end

section
/-! The shifts (spec 41_shift.md R120, R121): the words that are one, and the shifted value by arithmetic and by bits. -/

namespace Sys2Proof.Machine

/-- A word with the mask and match of a register-format row decodes to the row's instruction, with the fields at
their positions (30_encoding.md R72). -/
theorem decode_of_rMask {w : Word} {i : Instr} (op : OpName) (hop : i.op = op)
    (hformat : op.format = .registerFormat) (hfields : i.fields = .reg (rFieldsByPosition w))
    (hmask : w &&& 0xFC00003F = encR op.selector 0 0 0 0) : decode w = .ok i := by
  subst hop
  have hresolve : resolveName w = .ok i.op := (resolveName_iff_rMask hformat).mpr hmask
  obtain ⟨hzero, -⟩ := (resolveName_register_iff hformat).mp hresolve
  rw [opcodeOf_eq_bitsAt] at hzero
  exact decode_of_resolveName hresolve (hfields.trans (decodeFields_of_opcode_zero hzero).symm)

/-- A left shift multiplies by a power of two, and the bits lost past bit 31 are the reduction modulo 2^32. -/
theorem shl32_eq_ofNat_mul (a : Word) (n : Nat) : shl32 a n = BitVec.ofNat 32 (a.toNat * 2 ^ n) := by
  apply BitVec.eq_of_toNat_eq
  rw [shl32, BitVec.toNat_shiftLeft, Nat.shiftLeft_eq, BitVec.toNat_ofNat]

/-- An arithmetic right shift rounds the signed quotient down, for a negative value too (90_conflicts.md C1). -/
theorem toInt_sar32 (a : Word) (n : Nat) : (sar32 a n).toInt = Int.fdiv a.toInt (2 ^ n) := by
  rw [sar32, BitVec.toInt_sshiftRight, Int.shiftRight_eq_div_pow, Int.fdiv_eq_ediv_of_nonneg _ (by positivity)]
  norm_cast

/-- The bits of an arithmetic right shift: each moves down, and the vacated ones copy bit 31. -/
theorem getLsbD_sar32 (a : Word) (n : Nat) {k : Nat} (hk : k < 32) :
    (sar32 a n).getLsbD k = if k + n < 32 then a.getLsbD (k + n) else a.getLsbD 31 := by
  rw [sar32, BitVec.getLsbD_sshiftRight, BitVec.msb_eq_getLsbD_last, Nat.add_comm n k]
  simp [hk]

/-- Settles O15: the value written is the product modulo 2^32, in the frame every operation has. -/
theorem sllShiftsTargetLeftIntoRd : Obligations.SllShiftsTargetLeftIntoRd := by
  refine ⟨fun w hmask => decode_of_rMask .sll rfl rfl rfl hmask, fun f s => ?_⟩
  rw [← shl32_eq_ofNat_mul]
  exact exec_writesOnly (.sll f) s

/-- Settles O16: the value written is the result, read by its signed value and bit by bit. -/
theorem sraShiftsTargetRightKeepingSign : Obligations.SraShiftsTargetRightKeepingSign := by
  refine ⟨fun w hmask => decode_of_rMask .sra rfl rfl rfl hmask, fun f s => ?_⟩
  obtain ⟨t, hexec, hwrites⟩ := exec_writesOnly (.sra f) s
  exact ⟨t, _, hexec, hwrites, toInt_sar32 _ _, fun _ hk => getLsbD_sar32 _ _ hk⟩

end Sys2Proof.Machine
end

section
/-! The register ALU operations (spec 42_register_alu.md R130 to R134): the words that are one, and the value written.
Here a row's value formula is `resultOf` at its instruction, so no arithmetic is left beside the frame. -/

namespace Sys2Proof.Machine

/-- Settles O17: the result of ADD is the sum of the words, which wraps. -/
theorem addWritesWrappedSumIntoRd : Obligations.AddWritesWrappedSumIntoRd :=
  ⟨fun _ hmask => decode_of_rMask .add rfl rfl rfl hmask, fun f s => exec_writesOnly (.add f) s⟩

/-- Settles O18: the result of SUB is x[rs] - x[rt], the operands in the order opposite to the other four. -/
theorem subWritesSourceMinusTargetIntoRd : Obligations.SubWritesSourceMinusTargetIntoRd :=
  ⟨fun _ hmask => decode_of_rMask .sub rfl rfl rfl hmask, fun f s => exec_writesOnly (.sub f) s⟩

/-- Settles O19, from the row of AND and the frame of every operation. -/
theorem andWritesBitwiseAndIntoRd : Obligations.AndWritesBitwiseAndIntoRd :=
  ⟨fun _ hmask => decode_of_rMask .and rfl rfl rfl hmask, fun f s => exec_writesOnly (.and f) s⟩

/-- Settles O20, from the row of OR and the frame of every operation. -/
theorem orWritesBitwiseOrIntoRd : Obligations.OrWritesBitwiseOrIntoRd :=
  ⟨fun _ hmask => decode_of_rMask .or rfl rfl rfl hmask, fun f s => exec_writesOnly (.or f) s⟩

/-- Settles O21: NOR complements the whole of the or, not one operand. -/
theorem norWritesComplementOfOrIntoRd : Obligations.NorWritesComplementOfOrIntoRd :=
  ⟨fun _ hmask => decode_of_rMask .nor rfl rfl rfl hmask, fun f s => exec_writesOnly (.nor f) s⟩

end Sys2Proof.Machine
end

section
/-! The immediate ALU operations (spec 43_immediate_alu.md R150 to R152): the words that are one, and the immediate's
extension by its value, signed for ADDI and unsigned for ANDI and ORI. -/

namespace Sys2Proof.Machine

/-- A word with the mask and match of an immediate-format row decodes to the row's instruction, with the fields at
their positions (30_encoding.md R72). -/
theorem decode_of_iMask {w : Word} {i : Instr} (op : OpName) (hop : i.op = op)
    (hformat : op.format = .immediateFormat) (hfields : i.fields = .imm (iFieldsByPosition w))
    (hmask : w &&& 0xFC000000 = encI op.selector 0 0 0) : decode w = .ok i := by
  subst hop
  have hresolve : resolveName w = .ok i.op := (resolveName_iff_iMask hformat).mpr hmask
  have hne : bitsAt w 26 6 ≠ 0#6 := by
    rw [← opcodeOf_eq_bitsAt, (resolveName_immediate_iff hformat).mp hresolve]
    exact OpName.selector_ne_zero hformat
  exact decode_of_resolveName hresolve (hfields.trans (decodeFields_of_opcode_ne_zero hne).symm)

/-- The zero-extended immediate by its unsigned value (30_encoding.md R68). -/
theorem zext32_eq_ofNat (imm : Imm16) : zext32 imm = BitVec.ofNat 32 imm.toNat :=
  (BitVec.ofNat_toNat 32 imm).symm

/-- Settles O22: the immediate's signed value is its sign extension, in the frame every operation has. -/
theorem addiAddsSignedImmediateIntoRt : Obligations.AddiAddsSignedImmediateIntoRt := by
  refine ⟨fun _ hmask => decode_of_iMask .addi rfl rfl rfl hmask, fun f s => ?_⟩
  rw [← sext32_eq_ofInt]
  exact exec_writesOnly (.addi f) s

/-- Settles O23: the immediate's unsigned value is its zero extension, whatever its bit 15. -/
theorem andiMasksWithUnsignedImmediateIntoRt : Obligations.AndiMasksWithUnsignedImmediateIntoRt := by
  refine ⟨fun _ hmask => decode_of_iMask .andi rfl rfl rfl hmask, fun f s => ?_⟩
  rw [← zext32_eq_ofNat]
  exact exec_writesOnly (.andi f) s

/-- Settles O24: the immediate is zero-extended as in ANDI, so the upper half of x[rs] is kept. -/
theorem oriSetsUnsignedImmediateBitsIntoRt : Obligations.OriSetsUnsignedImmediateBitsIntoRt := by
  refine ⟨fun _ hmask => decode_of_iMask .ori rfl rfl rfl hmask, fun f s => ?_⟩
  rw [← zext32_eq_ofNat]
  exact exec_writesOnly (.ori f) s

end Sys2Proof.Machine
end

section
/-! Decode and encode are inverse (spec 30_encoding.md sections 5, 6, 8): an encoded instruction is decoded to itself,
and a decoded word is encoded to itself. Both encoders are read through an operation's selector. -/

namespace Sys2Proof

/-- An instruction pairs an operation with fields of that operation's format (30_encoding.md R76). -/
theorem Instr.op_format (i : Instr) : i.op.format = i.fields.format := by
  cases i <;> rfl

theorem wellFormed_toUnit (i : Instr) : i.toUnit.wellFormed = true :=
  decide_eq_true i.op_format

/-- A register-format instruction is encoded by its operation's function code. -/
theorem encode_of_reg {i : Instr} {f : RFields} (h : i.fields = .reg f) :
    encode i = encR i.op.selector f.rs f.rt f.rd f.shamt := by
  cases i <;> cases h <;> rfl

/-- An immediate-format instruction is encoded by its operation's opcode. -/
theorem encode_of_imm {i : Instr} {f : IFields} (h : i.fields = .imm f) :
    encode i = encI i.op.selector f.rs f.rt f.imm := by
  cases i <;> cases h <;> rfl

end Sys2Proof

namespace Sys2Proof.Machine

theorem decode_encode_of_reg {i : Instr} {f : RFields} (h : i.fields = .reg f) : decode (encode i) = .ok i := by
  have hformat : i.op.format = .registerFormat := by rw [i.op_format, h, DecodedFields.format]
  rw [encode_of_reg h]
  refine decode_of_resolveName ((resolveName_register_iff hformat).mpr ⟨?_, ?_⟩) ?_
  · rw [opcodeOf_eq_bitsAt, opcode_encR]
  · rw [functOf_eq_bitsAt, funct_encR]
  · rw [h, decodeFields_encR]

theorem decode_encode_of_imm {i : Instr} {f : IFields} (h : i.fields = .imm f) : decode (encode i) = .ok i := by
  have hformat : i.op.format = .immediateFormat := by rw [i.op_format, h, DecodedFields.format]
  have hnonzero : immediateOpcode i.op.selector = true := decide_eq_true (OpName.selector_ne_zero hformat)
  rw [encode_of_imm h]
  refine decode_of_resolveName ((resolveName_immediate_iff hformat).mpr ?_) ?_
  · rw [opcodeOf_eq_bitsAt, opcode_encI]
  · rw [h, decodeFields_encI _ _ _ hnonzero]

/-- Settles O11: one argument for each format. -/
theorem decodeOfEncodeIsTheInstruction : Obligations.DecodeOfEncodeIsTheInstruction := by
  refine fun i => ⟨wellFormed_toUnit i, ?_⟩
  cases h : i.fields with
  | reg f => exact decode_encode_of_reg h
  | imm f => exact decode_encode_of_imm h

/-- Under opcode 0 a word is the register-format encoding of the fields at its positions: they leave out no bit. -/
theorem encR_bitsAt {w : Word} (h : bitsAt w 26 6 = 0#6) :
    encR (bitsAt w 0 6) (bitsAt w 21 5) (bitsAt w 16 5) (bitsAt w 11 5) (bitsAt w 6 5) = w := by
  have hzero : w.toNat / 2 ^ 26 % 2 ^ 6 = 0 := by rw [← bitsAt_toNat, h, BitVec.toNat_ofNat]
  apply BitVec.eq_of_toNat_eq
  simp only [toNat_encR, bitsAt_toNat]
  omega

/-- Every word is the immediate-format encoding of the fields at its positions. -/
theorem encI_bitsAt (w : Word) : encI (bitsAt w 26 6) (bitsAt w 21 5) (bitsAt w 16 5) (bitsAt w 0 16) = w := by
  apply BitVec.eq_of_toNat_eq
  simp only [toNat_encI, bitsAt_toNat]
  omega

/-- Settles O12: the selector and the fields are the word's own, and together they hold all its bits. -/
theorem encodeOfDecodeIsTheWord : Obligations.EncodeOfDecodeIsTheWord := by
  intro w i h
  obtain ⟨hop, hfields⟩ := decode_cases h
  have hformat := i.op_format
  by_cases hzero : bitsAt w 26 6 = 0#6
  · rw [decodeFields_of_opcode_zero hzero] at hfields
    rw [hfields] at hformat
    obtain ⟨-, hfunct⟩ := (resolveName_register_iff hformat).mp hop
    rw [encode_of_reg hfields, ← hfunct, functOf_eq_bitsAt]
    exact encR_bitsAt hzero
  · rw [decodeFields_of_opcode_ne_zero hzero] at hfields
    rw [hfields] at hformat
    rw [encode_of_imm hfields, ← (resolveName_immediate_iff hformat).mp hop, opcodeOf_eq_bitsAt]
    exact encI_bitsAt w

end Sys2Proof.Machine
end

section
/-! The opcode map, the listed selectors and the dispatcher (spec 30_encoding.md R73, R74, R76, R81). -/

namespace Sys2Proof.Machine

/-- A row of the map holds its operation's mask, and the operation's selector encoded with every operand field 0. -/
theorem opcodeMap_row : ∀ row ∈ opcodeMap,
    (row.op.format = .registerFormat ∧ row.mask = 0xFC00003F ∧ row.bits = encR row.op.selector 0 0 0 0) ∨
    (row.op.format = .immediateFormat ∧ row.mask = 0xFC000000 ∧ row.bits = encI row.op.selector 0 0 0) := by
  decide

/-- A row covers exactly the words that its operation resolves. -/
theorem covers_iff_resolveName {row : OpRow} (h : row ∈ opcodeMap) (w : Word) :
    row.covers w = true ↔ resolveName w = .ok row.op := by
  rw [OpRow.covers, decide_eq_true_iff]
  obtain ⟨hformat, hmask, hbits⟩ | ⟨hformat, hmask, hbits⟩ := opcodeMap_row row h
  · rw [hmask, hbits, resolveName_iff_rMask hformat]
  · rw [hmask, hbits, resolveName_iff_iMask hformat]

theorem opcodeMap_op_injective : ∀ r ∈ opcodeMap, ∀ q ∈ opcodeMap, r.op = q.op → r = q := by decide

theorem exists_row_of_op (op : OpName) : ∃ row ∈ opcodeMap, row.op = op := by
  cases op <;> decide

/-- Settles O6: the resolver answers one operation, and an operation has one row. -/
theorem opcodeMapRowsNeverOverlap : Obligations.OpcodeMapRowsNeverOverlap := by
  refine ⟨fun w r q hr hq hrw hqw => ?_, fun w op => ⟨fun h => ?_, ?_⟩⟩
  · rw [covers_iff_resolveName hr] at hrw
    rw [covers_iff_resolveName hq, hrw] at hqw
    exact opcodeMap_op_injective r hr q hq (Except.ok.inj hqw)
  · obtain ⟨row, hrow, rfl⟩ := exists_row_of_op op
    exact ⟨row, hrow, (covers_iff_resolveName hrow w).mpr h, rfl⟩
  · rintro ⟨row, hrow, hcovers, rfl⟩
    exact (covers_iff_resolveName hrow w).mp hcovers

theorem buildExecutable_of_ok {w : Word} {op : OpName} (h : resolveName w = .ok op) :
    buildExecutable w = .ok { op := op, fields := decodeFields w } := by
  rw [buildExecutable, h]

theorem buildExecutable_of_error {w : Word} {e : DecodeError} (h : resolveName w = .error e) :
    buildExecutable w = .error e := by
  rw [buildExecutable, h]

/-- The unit that the dispatcher answers is well formed, so the decoder reads it as its instruction (30_encoding.md
R76): the decoder's last arm is never reached. -/
theorem decode_of_buildExecutable {w : Word} {u : ExecUnit} (h : buildExecutable w = .ok u) :
    u.op.format = u.fields.format ∧ ∃ i, decode w = .ok i ∧ i.toUnit = u := by
  obtain ⟨hop, hfields⟩ := buildExecutable_cases h
  have hformat : u.op.format = u.fields.format := by
    rw [hfields, decodeFields_format, resolveName_format hop]
  obtain ⟨i, hi⟩ := Option.isSome_iff_exists.mp ((toInstr_isSome_iff u).mpr (decide_eq_true hformat))
  have hunit := toInstr_eq_some hi
  subst hunit
  exact ⟨hformat, i, decode_of_resolveName hop hfields, rfl⟩

/-- Settles O14: the resolver's answer decides the dispatcher's, and its unit is read as an instruction. -/
theorem dispatcherPairsOperationWithItsFields : Obligations.DispatcherPairsOperationWithItsFields :=
  fun _ => ⟨fun _ => buildExecutable_of_ok, fun _ => buildExecutable_of_error, fun _ => decode_of_buildExecutable⟩

/-- The decoder rejects exactly the words that the resolver rejects. -/
theorem decode_error_iff_resolveName {w : Word} {e : DecodeError} :
    decode w = .error e ↔ resolveName w = .error e := by
  refine ⟨fun h => ?_, decode_of_resolveName_error⟩
  cases hr : resolveName w with
  | error e' =>
    cases e
    cases e'
    rfl
  | ok op =>
    obtain ⟨-, i, hi, -⟩ := decode_of_buildExecutable (buildExecutable_of_ok hr)
    rw [h] at hi
    cases hi

/-- The decoder rejects exactly the words that the dispatcher rejects. -/
theorem decode_error_iff_buildExecutable {w : Word} {e : DecodeError} :
    decode w = .error e ↔ buildExecutable w = .error e := by
  rw [decode_error_iff_resolveName]
  cases hr : resolveName w with
  | error e' => rw [buildExecutable_of_error hr]; simp
  | ok op => rw [buildExecutable_of_ok hr]; simp

/-- The resolver rejects exactly the words whose selector is absent from the half of the table that the opcode
selects: the complement of `resolveName_ok_iff`. -/
theorem resolveName_error_iff {w : Word} : resolveName w = .error .unrecognizedEncoding ↔
    (opcodeOf w = 0#6 ∧ opOfFunct (functOf w) = none) ∨ (opcodeOf w ≠ 0#6 ∧ opOfOpcode (opcodeOf w) = none) := by
  unfold resolveName classify
  by_cases h : opcodeOf w = 0#6
  · cases opOfFunct (functOf w) <;> simp [h]
  · cases opOfOpcode (opcodeOf w) <;> simp [h]

/-- The function codes absent from the table (30_encoding.md R74). -/
theorem opOfFunct_eq_none_iff : ∀ f : Selector, opOfFunct f = none ↔
    f.toNat = 0x01 ∨ f.toNat = 0x02 ∨ (0x04 ≤ f.toNat ∧ f.toNat ≤ 0x1F) ∨ f.toNat = 0x21 ∨ f.toNat = 0x23 ∨
      f.toNat = 0x26 ∨ (0x28 ≤ f.toNat ∧ f.toNat ≤ 0x3F) := by
  decide

/-- The non-zero opcodes absent from the table (30_encoding.md R74). -/
theorem opOfOpcode_eq_none_iff : ∀ o : Selector, o ≠ 0#6 ∧ opOfOpcode o = none ↔
    (0x01 ≤ o.toNat ∧ o.toNat ≤ 0x07) ∨ (0x09 ≤ o.toNat ∧ o.toNat ≤ 0x0B) ∨ (0x0E ≤ o.toNat ∧ o.toNat ≤ 0x3F) := by
  decide

/-- Settles O7: the complement of each half of the table is its list of R74. -/
theorem rejectedWordsAreTheListedSelectors : Obligations.RejectedWordsAreTheListedSelectors := by
  intro w
  have hzero : opcodeOf w = 0#6 ↔ (opcodeOf w).toNat = 0 := BitVec.toNat_inj.symm
  rw [decode_error_iff_resolveName, resolveName_error_iff, opOfFunct_eq_none_iff, opOfOpcode_eq_none_iff, hzero,
    opcodeOf_eq_bitsAt, functOf_eq_bitsAt]

/-- Words with the same answers are resolved alike: there is one error. -/
theorem resolveName_eq_of_ok_iff {v w : Word} (h : ∀ op, resolveName v = .ok op ↔ resolveName w = .ok op) :
    resolveName v = resolveName w := by
  cases hw : resolveName w with
  | ok op => exact (h op).mpr hw
  | error e =>
    cases hv : resolveName v with
    | ok op => rw [(h op).mp hv] at hw; cases hw
    | error e' => cases e; cases e'; rfl

/-- Settles O8: the resolver's condition is on the opcode and, under opcode 0, on the function code. -/
theorem operandBitsNeverSelect : Obligations.OperandBitsNeverSelect := by
  intro v w hopcode hfunct
  simp only [← opcodeOf_eq_bitsAt, ← functOf_eq_bitsAt] at hopcode hfunct
  refine resolveName_eq_of_ok_iff fun op => ?_
  rw [resolveName_ok_iff, resolveName_ok_iff, hopcode]
  by_cases hzero : opcodeOf w = 0#6
  · rw [hfunct hzero]
  · simp [hzero]

end Sys2Proof.Machine
end

section
/-! The checked extractor (spec 30_encoding.md R62) and words written out (95_test_vectors.md section 2.1). -/

namespace Sys2Proof.Machine

theorem extractChecked_of_not_validRange {w : Word} {hi lo : Int} (h : validRange hi lo = false) :
    extractChecked w hi lo = .error .malformedFieldRange := by
  rw [extractChecked, if_neg (by simp [h])]

theorem extractChecked_of_validRange {w : Word} {hi lo : Int} (h : validRange hi lo = true) :
    extractChecked w hi lo = .ok ((w.toNat >>> lo.toNat) % 2 ^ (hi.toNat - lo.toNat + 1)) := by
  rw [extractChecked, if_pos h]

/-- Settles O2: a bad range fails the check, and on a legal one the value is the extractor's. -/
theorem badBitRangeIsMalformedFieldRange : Obligations.BadBitRangeIsMalformedFieldRange := by
  refine ⟨fun w hi lo hbad => ?_, fun w hi lo h => ?_⟩
  · exact extractChecked_of_not_validRange (decide_eq_false (by omega))
  · rw [extractChecked_of_validRange (decide_eq_true (by omega)), extractReturnsTheBitsOfTheRange, Int.toNat_natCast,
      Int.toNat_natCast]

/-- Settles O13: each word is decoded by evaluation. -/
theorem writtenOutWordsDecode : Obligations.WrittenOutWordsDecode :=
  ⟨rfl, rfl, rfl, rfl, rfl, rfl⟩

end Sys2Proof.Machine
end

section
/-! Rules over all operations (spec 10_state.md R24, 30_encoding.md R73, R75, 40_execution_engine.md R104), from the one
result that every operation retires. -/

namespace Sys2Proof.Machine

/-- The destination register holds the operation's result. -/
theorem exec_next_readReg_dest {i : Instr} {s t : State} (h : exec i s = .next t) :
    t.readReg (dest i.fields) = resultOf s i :=
  (exec_cases h).readReg_same

theorem exec_next_pc {i : Instr} {s t : State} (h : exec i s = .next t) : t.pc = s.pc + 4 := by
  obtain ⟨-, hpc, -⟩ := exec_cases h
  exact hpc

/-- Settles O28: the result is computed from the source registers of the operation's row. -/
theorem resultDependsOnSourceRegistersOnly : Obligations.ResultDependsOnSourceRegistersOnly := by
  intro i s t s' t' hsources hs ht
  have hresult : resultOf s i = resultOf t i := by
    cases i with
    | sll f | sra f => simp only [resultOf, hsources]
    | add f | sub f | and f | or f | nor f =>
      obtain ⟨hrs, hrt⟩ := hsources
      simp only [resultOf, hrs, hrt]
    | addi f | andi f | ori f => simp only [resultOf, hsources]
  exact (exec_next_readReg_dest hs).trans (hresult.trans (exec_next_readReg_dest ht).symm)

/-- The pc's advance by its value: past 0xFFFFFFFC it wraps to 0 (D5, log entry 3). -/
theorem toNat_add_four (pc : Word) :
    (pc + 4).toNat = if pc.toNat + 4 < 2 ^ 32 then pc.toNat + 4 else pc.toNat + 4 - 2 ^ 32 := by
  have hlt := pc.isLt
  rw [BitVec.toNat_add, show (4 : Word).toNat = 4 from rfl]
  split <;> omega

/-- Settles O30: every operation answers a next state, and its pc is the advanced one. -/
theorem pcAdvancesByFourAndWrapsToZero : Obligations.PcAdvancesByFourAndWrapsToZero := by
  intro i s
  obtain ⟨t, hexec, -⟩ := exec_writesOnly i s
  exact ⟨t, hexec, by rw [exec_next_pc hexec, toNat_add_four]⟩

/-- Settles O9: no result reads the field, and no destination is it. -/
theorem ignoredFieldsNeverMatter : Obligations.IgnoredFieldsNeverMatter :=
  fun _ _ => ⟨fun _ => ⟨rfl, rfl⟩, fun _ => ⟨rfl, rfl, rfl, rfl, rfl⟩⟩

/-- Writing a register's own value changes nothing but the pc. -/
theorem WritesOnly.eq_of_readReg_eq {d : RegIdx} {v : Word} {s t : State} (h : WritesOnly d v s t)
    (hv : v = s.readReg d) : t = { s with pc := s.pc + 4 } := by
  obtain ⟨hread, hpc, hstream, hexecuted, hstatus⟩ := h
  refine State.ext_readReg (fun r => ?_) hpc hstream hexecuted hstatus
  rw [hread r]
  split
  next hr => rw [hv, hr]; rfl
  next => rfl

/-- Settles O31: the all-zero word shifts register 0 by 0 into itself. -/
theorem allZeroWordOnlyAdvancesPc : Obligations.AllZeroWordOnlyAdvancesPc := by
  intro s
  obtain ⟨t, hexec, hwrites⟩ := exec_writesOnly (.sll { rs := 0, rt := 0, rd := 0, shamt := 0 }) s
  have hresult : resultOf s (.sll { rs := 0, rt := 0, rd := 0, shamt := 0 }) = s.readReg 0 := BitVec.shiftLeft_zero _
  exact ⟨_, t, rfl, hexec, hwrites.eq_of_readReg_eq hresult⟩

end Sys2Proof.Machine
end

section
/-! One step (spec 40_execution_engine.md R107): what it answers on a legal and on an illegal word. -/

namespace Sys2Proof.Machine

/-- The step on a legal word. -/
theorem step_of_decode_ok {s : State} {w : Word} {i : Instr} (hr : s.status = .running)
    (hw : s.stream[s.executed]? = some w) (hd : decode w = .ok i) : step s = exec i s.consumeWord := by
  rw [step, nextWord_ok_iff.mpr ⟨hr, hw⟩]
  simp only [hd]

/-- The step on an illegal word. -/
theorem step_of_decode_error {s : State} {w : Word} {e : DecodeError} (hr : s.status = .running)
    (hw : s.stream[s.executed]? = some w) (hd : decode w = .error e) : step s = .fault (.decodeError e w s.pc) := by
  rw [step, nextWord_ok_iff.mpr ⟨hr, hw⟩]
  simp only [hd, raiseDecodeError]

/-- Settles O32: the state with the word taken is `consumeWord`. -/
theorem stepExecutesTheDecodedWord : Obligations.StepExecutesTheDecodedWord :=
  fun _ _ _ => step_of_decode_ok

/-- Settles O33: the fault's state is stopped by the run with its status alone changed. -/
theorem unrecognizedWordFaultsAndChangesNothing : Obligations.UnrecognizedWordFaultsAndChangesNothing := by
  intro s w hr hw hbuild
  have hstep := step_of_decode_error hr hw (decode_error_iff_buildExecutable.mpr hbuild)
  exact ⟨hstep, run_of_fault hstep⟩

/-- A legal word of a running run is executed. -/
theorem exists_step_next {s : State} {w : Word} {i : Instr} (hr : s.status = .running)
    (hw : s.stream[s.executed]? = some w) (hd : decode w = .ok i) :
    ∃ t, step s = .next t ∧ WritesOnly (dest i.fields) (resultOf s i) s.consumeWord t := by
  rw [step_of_decode_ok hr hw hd, ← resultOf_consumeWord]
  exact exec_writesOnly i s.consumeWord

/-- No operation is refused, so no step is. -/
theorem step_ne_refused (s : State) (r : Refusal) : step s ≠ .refused r := by
  unfold step
  split
  · nofun
  · split
    · nofun
    next i _ =>
      obtain ⟨t, hexec, -⟩ := exec_writesOnly i s.consumeWord
      rw [hexec]
      nofun

/-- Settles O34: the dispatcher's answer decides between the step's two outcomes. -/
theorem stepHasNoThirdOutcome : Obligations.StepHasNoThirdOutcome := by
  refine ⟨fun s w hr hw => ?_, step_ne_refused⟩
  cases hbuild : buildExecutable w with
  | ok u =>
    obtain ⟨-, i, hd, -⟩ := decode_of_buildExecutable hbuild
    obtain ⟨t, hstep, -⟩ := exists_step_next hr hw hd
    exact .inl ⟨u, t, rfl, hstep⟩
  | error e =>
    cases e
    exact .inr ⟨rfl, step_of_decode_error hr hw (decode_error_iff_buildExecutable.mpr hbuild)⟩

/-- The inverse reading of a step that answers a next state: the word taken, and every field of the state after it. -/
theorem step_next_writesOnly {s t : State} (h : step s = .next t) :
    ∃ w i, s.status = .running ∧ s.stream[s.executed]? = some w ∧ decode w = .ok i ∧
      WritesOnly (dest i.fields) (resultOf s i) s.consumeWord t := by
  obtain ⟨w, i, hr, hw, hd, hexec⟩ := step_next_cases h
  exact ⟨w, i, hr, hw, hd, resultOf_consumeWord s i ▸ exec_cases hexec⟩

theorem step_next_executed {s t : State} (h : step s = .next t) : t.executed = s.executed + 1 := by
  obtain ⟨_, _, -, -, -, -, -, -, hexecuted, -⟩ := step_next_writesOnly h
  exact hexecuted

theorem step_next_pc {s t : State} (h : step s = .next t) : t.pc = s.pc + 4 := by
  obtain ⟨_, _, -, -, -, -, hpc, -⟩ := step_next_writesOnly h
  exact hpc

theorem step_next_status {s t : State} (h : step s = .next t) :
    t.status = if s.executed + 1 < s.stream.length then .running else .halted := by
  obtain ⟨_, _, -, -, -, -, -, -, -, hstatus⟩ := step_next_writesOnly h
  exact hstatus

/-- Settles O37, from the inverse reading of the step. -/
theorem stepTakesOneWordAndWritesOneRegister : Obligations.StepTakesOneWordAndWritesOneRegister := by
  intro s t h
  obtain ⟨w, i, -, hw, hd, hread, -⟩ := step_next_writesOnly h
  exact ⟨step_next_executed h, step_next_pc h, w, i, _, hw, hd, hread⟩

/-- A result is computed from the registers alone. -/
theorem resultOf_congr {s t : State} (h : s.regs = t.regs) (i : Instr) : resultOf s i = resultOf t i := by
  cases i <;> simp only [resultOf, readReg_congr h]

theorem writeReg_regs_congr {s t : State} (h : s.regs = t.regs) (d : RegIdx) (v : Word) :
    (s.writeReg d v).regs = (t.writeReg d v).regs := by
  simp only [State.writeReg, h]

/-- Settles O38: both runs decode the same word, and the operation sees the same registers and pc. -/
theorem stepIgnoresInstructionHistory : Obligations.StepIgnoresInstructionHistory := by
  rintro s t hs ht hregs hpc ⟨w, hsw, htw⟩
  cases hd : decode w with
  | ok i =>
    have hresult : resultOf s.consumeWord i = resultOf t.consumeWord i := resultOf_congr hregs i
    rw [step_of_decode_ok hs hsw hd, step_of_decode_ok ht htw hd, exec_eq_retire, exec_eq_retire, hresult]
    exact .inl ⟨_, _, rfl, rfl, writeReg_regs_congr hregs _ _, congrArg (· + 4) hpc⟩
  | error e =>
    exact .inr ⟨_, step_of_decode_error hs hsw hd, hpc ▸ step_of_decode_error ht htw hd⟩

end Sys2Proof.Machine
end

section
/-! The invariant (spec 10_state.md R28, R33, R34): at launch, kept by a step, by the fault that ends a run, and by a
run; what it says of the supply; and the pc's alignment (20_memory.md R42, R44). -/

namespace Sys2Proof.Machine

/-- Settles O39: launch holds its arguments by definition; its status tells the empty stream from the others. -/
theorem launchHoldsItsArguments : Obligations.LaunchHoldsItsArguments := by
  refine ⟨fun r ws => ⟨fun _ => rfl, rfl, rfl, ?_, ?_⟩, fun k => ?_, rfl⟩
  · by_cases h : ws = [] <;> simp [h]
  · by_cases h : ws = [] <;> simp [h]
  · exact Vector.getElem_replicate _

/-- What the agreement of the status with the supply says of each status (10_state.md R33). -/
theorem statusAgrees_of_running {s : State} (h : s.status = .running) :
    s.statusAgrees = true ↔ s.executed < s.stream.length := by
  simp [State.statusAgrees, h]

theorem statusAgrees_of_halted {s : State} (h : s.status = .halted) :
    s.statusAgrees = true ↔ s.executed = s.stream.length := by
  simp [State.statusAgrees, h]

theorem statusAgrees_of_faulted {s : State} {e : DecodeError} {w pc : Word} (h : s.status = .faulted e w pc) :
    s.statusAgrees = true ↔ s.stream[s.executed]? = some w ∧ legal w = false ∧ pc = s.pc := by
  simp [State.statusAgrees, h, and_assoc]

theorem launch_inv (r : Vector Word 32) (ws : List Word) : (State.launch r ws).Inv := by
  refine ⟨?_, rfl⟩
  by_cases h : ws = []
  · exact (statusAgrees_of_halted (by simp [h])).mpr (by simp [h])
  · exact (statusAgrees_of_running (by simp [h])).mpr (List.length_pos_of_ne_nil h)

/-- Settles O40: reset is a launch too. -/
theorem launchMeetsTheInvariant : Obligations.LaunchMeetsTheInvariant :=
  ⟨fun r ws => ⟨launch_inv r ws, rfl⟩, launch_inv _ _⟩

/-- The pc's advance is one word's offset more, wrap included. -/
theorem ofNat_four_mul_succ (k : Nat) : BitVec.ofNat 32 (4 * (k + 1)) = BitVec.ofNat 32 (4 * k) + 4 := by
  rw [Nat.mul_succ, BitVec.ofNat_add]
  rfl

/-- After a step the status agrees with the supply: the word taken was in the stream, and the status says whether one
is left. -/
theorem step_next_statusAgrees {s t : State} (h : step s = .next t) : t.statusAgrees = true := by
  obtain ⟨w, _, -, hw, -⟩ := step_next_cases h
  obtain ⟨hlt, -⟩ := List.getElem?_eq_some_iff.mp hw
  have hstatus := step_next_status h
  split at hstatus
  next hleft =>
    rw [statusAgrees_of_running hstatus, step_next_executed h, step_next_stream h]
    exact hleft
  next hnone =>
    rw [statusAgrees_of_halted hstatus, step_next_executed h, step_next_stream h]
    omega

theorem step_next_inv {s t : State} (hs : s.Inv) (h : step s = .next t) : t.Inv := by
  obtain ⟨-, hpc⟩ := hs
  refine ⟨step_next_statusAgrees h, ?_⟩
  rw [step_next_pc h, step_next_executed h, hpc, ofNat_four_mul_succ]

/-- Settles O41: a step writes the status that the supply has, and the pc and the step number advance together. -/
theorem everyStepKeepsTheInvariant : Obligations.EveryStepKeepsTheInvariant :=
  fun _ _ => step_next_inv

theorem legal_iff {w : Word} : legal w = true ↔ ∃ i, decode w = .ok i := by
  unfold legal
  cases decode w <;> simp

theorem legal_eq_false_iff {w : Word} : legal w = false ↔ decode w = .error .unrecognizedEncoding := by
  unfold legal
  cases decode w with
  | ok i => simp
  | error e => cases e; simp

/-- The supply answers no word when the run has ended, or when no word is left. -/
theorem nextWord_error_cases {s : State} {f : Fault} (h : s.nextWord = .error f) :
    (∃ e w pc, s.status = .faulted e w pc ∧ f = .decodeError e w pc) ∨
    (s.status = .halted ∧ f = .streamExhausted) ∨
    (s.status = .running ∧ s.stream[s.executed]? = none ∧ f = .streamExhausted) := by
  unfold State.nextWord at h
  split at h
  next e w pc hs => cases h; exact .inl ⟨e, w, pc, hs, rfl⟩
  next hs => cases h; exact .inr (.inl ⟨hs, rfl⟩)
  next hs =>
    split at h
    · cases h
    next hw => cases h; exact .inr (.inr ⟨hs, hw, rfl⟩)

/-- A step that faults met an illegal word of a running run, or was taken where the supply answers no word. -/
theorem step_fault_cases {s : State} {f : Fault} (h : step s = .fault f) :
    (∃ w e, s.status = .running ∧ s.stream[s.executed]? = some w ∧ decode w = .error e ∧
      f = .decodeError e w s.pc) ∨
    s.nextWord = .error f := by
  cases hn : s.nextWord with
  | error g =>
    rw [step, hn] at h
    exact .inr (by rw [Host.Outcome.fault.inj h])
  | ok w =>
    obtain ⟨hr, hw⟩ := nextWord_ok_iff.mp hn
    cases hd : decode w with
    | ok i =>
      obtain ⟨t, hstep, -⟩ := exists_step_next hr hw hd
      rw [hstep] at h
      cases h
    | error e =>
      rw [step_of_decode_error hr hw hd] at h
      exact .inl ⟨w, e, hr, hw, hd, (Host.Outcome.fault.inj h).symm⟩

/-- Stopping an ended run again leaves it as it is. -/
theorem stop_decodeError_eq_self {s : State} {e : DecodeError} {w pc : Word} (h : s.status = .faulted e w pc) :
    s.stop (.decodeError e w pc) = s := by
  rw [State.stop, ← h]

theorem stop_streamExhausted_eq_self {s : State} (h : s.status = .halted) : s.stop .streamExhausted = s := by
  rw [State.stop, ← h]

/-- Settles O35: the supply answers the fault, and the run's stop writes the status it already has. -/
theorem endedRunTakesNoStep : Obligations.EndedRunTakesNoStep := by
  refine ⟨fun s e w pc h => ?_, fun s h => ?_⟩
  · have hstep : step s = .fault (.decodeError e w pc) := by simp only [step, State.nextWord, h]
    exact ⟨hstep, by rw [run_of_fault hstep, stop_decodeError_eq_self h]⟩
  · have hstep : step s = .fault .streamExhausted := by simp only [step, State.nextWord, h]
    exact ⟨hstep, by rw [run_of_fault hstep, stop_streamExhausted_eq_self h]⟩

/-- Stopping on a step's fault keeps the invariant. In a state that meets it no running run is without a word. -/
theorem stop_inv {s : State} {f : Fault} (hs : s.Inv) (h : step s = .fault f) : (s.stop f).Inv := by
  obtain ⟨hagrees, hpc⟩ := hs
  obtain ⟨w, e, -, hw, hd, rfl⟩ | hnone := step_fault_cases h
  · exact ⟨(statusAgrees_of_faulted rfl).mpr ⟨hw, legal_eq_false_iff.mpr hd, rfl⟩, hpc⟩
  · obtain ⟨e, w, pc, hr, rfl⟩ | ⟨hr, rfl⟩ | ⟨hr, hw, rfl⟩ := nextWord_error_cases hnone
    · rw [stop_decodeError_eq_self hr]
      exact ⟨hagrees, hpc⟩
    · rw [stop_streamExhausted_eq_self hr]
      exact ⟨hagrees, hpc⟩
    · rw [statusAgrees_of_running hr] at hagrees
      exact absurd (List.getElem?_eq_none_iff.mp hw) (by omega)

theorem run_inv {s : State} (h : s.Inv) : (run s).Inv :=
  run_invariant State.Inv (fun _ _ => step_next_inv) (fun _ _ => stop_inv) s h

/-- A step that answers a next state takes the head of the remaining words. -/
theorem step_next_remaining {s t : State} (h : step s = .next t) :
    ∃ w i, s.remaining = w :: t.remaining ∧ decode w = .ok i := by
  obtain ⟨w, i, -, hw, hd, -⟩ := step_next_cases h
  refine ⟨w, i, ?_, hd⟩
  obtain ⟨hlt, hget⟩ := List.getElem?_eq_some_iff.mp hw
  rw [State.remaining, State.remaining, step_next_stream h, step_next_executed h, List.drop_eq_getElem_cons hlt, hget]

theorem stop_status_ne_running (s : State) (f : Fault) : (s.stop f).status ≠ .running := by
  cases f <;> simp

/-- With one step more than words remain, the last one finds the run's end. -/
theorem drive_status_ne_running {n : Nat} {s : State} (h : s.remaining.length < n) :
    (drive n s).status ≠ .running := by
  induction n generalizing s with
  | zero => omega
  | succ n ih =>
    unfold drive
    split
    next t ht =>
      obtain ⟨w, i, hcons, -⟩ := step_next_remaining ht
      rw [hcons, List.length_cons] at h
      exact ih (by omega)
    next f _ => exact stop_status_ne_running s f
    next r hr => exact absurd hr (step_ne_refused s r)

theorem run_status_ne_running (s : State) : (run s).status ≠ .running :=
  drive_status_ne_running (Nat.lt_succ_self _)

/-- Settles O42: the invariant by induction over the run's steps, its end by counting the words that remain. -/
theorem runKeepsTheInvariant : Obligations.RunKeepsTheInvariant :=
  fun s h => ⟨run_inv h, run_status_ne_running s⟩

/-- 4 divides 2^32, so that the wrap keeps alignment. -/
theorem add_four_aligned {pc : Word} (h : pc.toNat % 4 = 0) : (pc + 4).toNat % 4 = 0 := by
  rw [toNat_add_four]
  split <;> omega

/-- Settles O43: the pc only ever advances by 4. -/
theorem pcStaysAligned : Obligations.PcStaysAligned := by
  have hstep : ∀ s t : State, s.PcAligned → step s = .next t → t.PcAligned := by
    intro s t hs h
    rw [State.PcAligned, step_next_pc h]
    exact add_four_aligned hs
  refine ⟨fun i s t hs h => ?_, hstep, fun s hs => ?_⟩
  · rw [State.PcAligned, exec_next_pc h]
    exact add_four_aligned hs
  · refine run_invariant State.PcAligned hstep (fun u f hu _ => ?_) s hs
    rw [State.PcAligned, stop_pc]
    exact hu

/-- Settles O44: with at most 2^30 words the offset 4k does not wrap. -/
theorem wordAtThePcIsTheNextWord : Obligations.WordAtThePcIsTheNextWord := by
  rintro s ⟨hagrees, hpc⟩ hr hlen
  rw [statusAgrees_of_running hr] at hagrees
  have hpcNat : s.pc.toNat = 4 * s.executed := by
    rw [hpc, BitVec.toNat_ofNat]
    exact Nat.mod_eq_of_lt (by omega)
  refine ⟨hpcNat, ?_⟩
  rw [State.wordAtOffset, hpcNat, if_pos (Nat.mul_mod_right 4 _), Nat.mul_div_cancel_left _ (by decide)]

end Sys2Proof.Machine
end

section
/-! The step against the second reading (spec 30_encoding.md R81, 40_execution_engine.md R107): the masks decide as the
resolver does, and each row's pseudocode is the operation's result. -/

namespace Sys2Proof.Machine

/-- The fields of a decoded register-format instruction are the word's, by position. -/
theorem decode_reg_fields {w : Word} {i : Instr} {f : RFields} (h : decode w = .ok i) (hi : i.fields = .reg f) :
    f = rFieldsByPosition w := by
  obtain ⟨-, hfields⟩ := decode_cases h
  rw [hi] at hfields
  by_cases hop : bitsAt w 26 6 = 0#6
  · rw [decodeFields_of_opcode_zero hop] at hfields
    cases hfields
    rfl
  · rw [decodeFields_of_opcode_ne_zero hop] at hfields
    cases hfields

/-- An arithmetic right shift as the word of the rounded quotient (41_shift.md R121). -/
theorem sar32_eq_ofInt_fdiv (a : Word) (n : Nat) : sar32 a n = BitVec.ofInt 32 (Int.fdiv a.toInt (2 ^ n)) := by
  rw [← toInt_sar32, BitVec.ofInt_toInt]

/-- On a state's architectural part the second reading is the decoded operation's write: a row's mask matches exactly
when the resolver answers the row's operation, and the row's pseudocode is that operation's result. -/
theorem specStep_arch (s : State) (w : Word) :
    specStep s.arch w = (decode w).toOption.map fun i => s.arch.put (dest i.fields) (resultOf s i) := by
  obtain ⟨hmask, -⟩ := resolverFollowsMaskAndMatch
  replace hmask := hmask w
  simp only [specStep, ← hmask .sll, ← hmask .sra, ← hmask .add, ← hmask .sub, ← hmask .and, ← hmask .or,
    ← hmask .nor, ← hmask .addi, ← hmask .andi, ← hmask .ori]
  cases hd : decode w with
  | error e => simp [decode_error_iff_resolveName.mp hd, Except.toOption]
  | ok i =>
    obtain ⟨hop, -⟩ := decode_cases hd
    rw [hop]
    cases i with
    | sll f | sra f | add f | sub f | and f | or f | nor f =>
      obtain rfl := decode_reg_fields hd rfl
      simp [Instr.op, Instr.fields, dest, resultOf, State.arch, Except.toOption, shiftCount, shl32_eq_ofNat_mul,
        sar32_eq_ofInt_fdiv, add32, sub32]
    | addi f | andi f | ori f =>
      obtain rfl := decode_imm_fields hd rfl
      simp [Instr.op, Instr.fields, dest, resultOf, State.arch, Except.toOption, add32, sext32_eq_ofInt,
        zext32_eq_ofNat]

theorem specStep_of_decode_ok {w : Word} {i : Instr} (h : decode w = .ok i) (s : State) :
    specStep s.arch w = some (s.arch.put (dest i.fields) (resultOf s i)) := by
  rw [specStep_arch, h]
  rfl

theorem specStep_of_decode_error {w : Word} {e : DecodeError} (h : decode w = .error e) (s : State) :
    specStep s.arch w = none := by
  rw [specStep_arch, h]
  rfl

/-- A step on a legal word is the step of the second reading on it. -/
theorem exists_step_next_specStep {s : State} {w : Word} {i : Instr} (hr : s.status = .running)
    (hw : s.stream[s.executed]? = some w) (hd : decode w = .ok i) :
    ∃ t, step s = .next t ∧ specStep s.arch w = some t.arch := by
  obtain ⟨t, hstep, hwrites⟩ := exists_step_next hr hw hd
  exact ⟨t, hstep, by rw [specStep_of_decode_ok hd, arch_of_writesOnly hwrites]; rfl⟩

/-- Settles O45: the decoder's answer decides between the two clauses. -/
theorem stepRefinesTheMaskAndMatchReading : Obligations.StepRefinesTheMaskAndMatchReading := by
  intro s w hr hw
  cases hd : decode w with
  | ok i =>
    obtain ⟨t, hstep, hspec⟩ := exists_step_next_specStep hr hw hd
    rw [hspec]
    exact ⟨fun a ha => ⟨t, hstep, Option.some.inj ha⟩, nofun⟩
  | error e =>
    rw [specStep_of_decode_error hd]
    exact ⟨nofun, fun _ => step_of_decode_error hr hw hd⟩

end Sys2Proof.Machine
end

section
/-! The run, by recursion on the words that remain (spec 40_execution_engine.md R108, 70_reset_and_hazards.md R204). -/

namespace Sys2Proof.Machine

/-- The run has met no illegal word: its status only says whether words remain (10_state.md R33). Launch meets it, and
so does every state that a step answers. -/
def State.Live (s : State) : Prop := s.status = if s.remaining = [] then .halted else .running

theorem launch_live (r : Vector Word 32) (ws : List Word) : (State.launch r ws).Live := rfl

theorem State.Live.halted {s : State} (h : s.Live) (hrem : s.remaining = []) : s.status = .halted := by
  rw [h, if_pos hrem]

theorem State.Live.running {s : State} (h : s.Live) {w : Word} {ws : List Word} (hrem : s.remaining = w :: ws) :
    s.status = .running := by
  rw [h, if_neg (by simp [hrem])]

/-- The head of the remaining words is the word the next step takes. -/
theorem getElem?_of_remaining {s : State} {w : Word} {ws : List Word} (h : s.remaining = w :: ws) :
    s.stream[s.executed]? = some w := by
  rw [← List.head?_drop, ← State.remaining, h, List.head?_cons]

theorem step_next_live {s t : State} (h : step s = .next t) : t.Live := by
  rw [State.Live, State.remaining, step_next_status h, step_next_stream h, step_next_executed h]
  simp only [List.drop_eq_nil_iff, ← Nat.not_lt, ite_not]

/-- A step that answers a next state is the run's first. -/
theorem run_of_next {s t : State} (h : step s = .next t) : run s = run t := by
  obtain ⟨w, i, hcons, -⟩ := step_next_remaining h
  rw [run, hcons, List.length_cons, drive, h]
  rfl

/-- A live run with no word left is at its end. -/
theorem run_of_remaining_nil {s : State} (h : s.Live) (hrem : s.remaining = []) : run s = s := by
  obtain ⟨-, hhalted⟩ := endedRunTakesNoStep
  obtain ⟨-, hrun⟩ := hhalted s (h.halted hrem)
  exact hrun

/-- A live run stops at an illegal word, in the state before it. -/
theorem run_of_illegal {s : State} {w : Word} {ws : List Word} {e : DecodeError} (h : s.Live)
    (hrem : s.remaining = w :: ws) (hd : decode w = .error e) : run s = { s with status := .faulted e w s.pc } :=
  run_of_fault (step_of_decode_error (h.running hrem) (getElem?_of_remaining hrem) hd)

/-- A live run takes one step for a legal word, and the recursion of the spec the same. -/
theorem exists_step_next_specRun {s : State} {w : Word} {ws : List Word} {i : Instr} (h : s.Live)
    (hrem : s.remaining = w :: ws) (hd : decode w = .ok i) :
    ∃ t, step s = .next t ∧ t.remaining = ws ∧ ∀ us, specRun s.arch (w :: us) = specRun t.arch us := by
  obtain ⟨t, hstep, hspec⟩ := exists_step_next_specStep (h.running hrem) (getElem?_of_remaining hrem) hd
  obtain ⟨_, _, hcons, -⟩ := step_next_remaining hstep
  rw [hrem] at hcons
  obtain ⟨-, htail⟩ := List.cons.inj hcons
  exact ⟨t, hstep, htail.symm, fun us => by rw [specRun, hspec]⟩

theorem specRun_of_illegal {s : State} {w : Word} {ws : List Word} {e : DecodeError} (hd : decode w = .error e) :
    specRun s.arch (w :: ws) = (s.arch, .faulted .unrecognizedEncoding w s.pc) := by
  rw [specRun, specStep_of_decode_error hd]
  rfl

/-- From every live state the machine's run is the spec's recursion over the words that remain. -/
theorem run_eq_specRun {s : State} {ws : List Word} (h : s.Live) (hrem : s.remaining = ws) :
    ((run s).arch, (run s).status) = specRun s.arch ws := by
  induction ws generalizing s with
  | nil => rw [run_of_remaining_nil h hrem, h.halted hrem, specRun]
  | cons w ws ih =>
    cases hd : decode w with
    | ok i =>
      obtain ⟨t, hstep, htrem, hspec⟩ := exists_step_next_specRun h hrem hd
      rw [run_of_next hstep, hspec]
      exact ih (step_next_live hstep) htrem
    | error e =>
      rw [run_of_illegal h hrem hd, specRun_of_illegal hd]
      rfl

/-- Settles O46: a launched run is live, and every word of its stream remains. -/
theorem runRefinesTheSpecRecursion : Obligations.RunRefinesTheSpecRecursion :=
  fun r ws => run_eq_specRun (launch_live r ws) rfl

/-- A run over legal words reaches a live state in which the words after them remain, and the spec's recursion goes
on from that state alike, whatever words come after. -/
theorem exists_run_over_legal {s : State} {as bs : List Word} (h : s.Live) (hrem : s.remaining = as ++ bs)
    (hsafe : safeStream as = true) :
    ∃ t, run s = run t ∧ t.Live ∧ t.remaining = bs ∧ t.executed = s.executed + as.length ∧
      ∀ us, specRun s.arch (as ++ us) = specRun t.arch us := by
  induction as generalizing s with
  | nil => exact ⟨s, rfl, h, hrem, rfl, fun _ => rfl⟩
  | cons w as ih =>
    rw [safeStream, List.all_cons, Bool.and_eq_true, legal_iff] at hsafe
    obtain ⟨⟨i, hd⟩, hsafe⟩ := hsafe
    obtain ⟨u, hstep, hurem, huspec⟩ := exists_step_next_specRun h hrem hd
    obtain ⟨t, hrun, hlive, htrem, hexecuted, hspec⟩ := ih (step_next_live hstep) hurem hsafe
    refine ⟨t, (run_of_next hstep).trans hrun, hlive, htrem, ?_, fun us => (huspec _).trans (hspec us)⟩
    rw [hexecuted, step_next_executed hstep, List.length_cons]
    omega

/-- The state that a launched run over legal words, then others, reaches when the others remain: it has the registers
and pc with which the run over the legal words alone ends. -/
theorem exists_run_launch_append (r : Vector Word 32) {as : List Word} (bs : List Word) (hsafe : safeStream as = true) :
    ∃ t, run (State.launch r (as ++ bs)) = run t ∧ t.Live ∧ t.remaining = bs ∧ t.executed = as.length ∧
      t.arch = (run (State.launch r as)).arch := by
  obtain ⟨t, hrun, hlive, hrem, hexecuted, hspec⟩ :=
    exists_run_over_legal (launch_live r (as ++ bs)) rfl hsafe
  rw [launch_executed, Nat.zero_add] at hexecuted
  refine ⟨t, hrun, hlive, hrem, hexecuted, ?_⟩
  have hend : ((run (State.launch r as)).arch, (run (State.launch r as)).status) = (t.arch, .halted) :=
    calc _ = specRun (State.launch r as).arch as := runRefinesTheSpecRecursion r as
      _ = specRun (State.launch r as).arch (as ++ []) := by rw [List.append_nil]
      _ = specRun t.arch [] := hspec []
  exact (congrArg Prod.fst hend).symm

/-- The invariant bounds the words executed. -/
theorem executed_le_of_inv {s : State} (h : s.Inv) : s.executed ≤ s.stream.length := by
  obtain ⟨hagrees, -⟩ := h
  cases hs : s.status with
  | running => exact ((statusAgrees_of_running hs).mp hagrees).le
  | halted => exact ((statusAgrees_of_halted hs).mp hagrees).le
  | faulted e w pc =>
    obtain ⟨hw, -⟩ := (statusAgrees_of_faulted hs).mp hagrees
    obtain ⟨hlt, -⟩ := List.getElem?_eq_some_iff.mp hw
    exact hlt.le

/-- Settles O47: the bound and the pc are the invariant's, at the end of the run. -/
theorem everyRunEndsWithinItsStream : Obligations.EveryRunEndsWithinItsStream := by
  refine ⟨run_status_ne_running, fun r ws => ?_⟩
  have hinv : (run (State.launch r ws)).Inv := run_inv (launch_inv r ws)
  have hle := executed_le_of_inv hinv
  obtain ⟨hagrees, hpc⟩ := hinv
  rw [run_stream] at hle
  refine ⟨_, hle, rfl, hpc, fun hhalted => ?_⟩
  rw [statusAgrees_of_halted hhalted, run_stream] at hagrees
  exact hagrees

/-- Settles O48: the run over legal words reaches the state in which no word remains, and ends in it. -/
theorem safeStreamRunsToItsEnd : Obligations.SafeStreamRunsToItsEnd := by
  intro r ws hsafe
  obtain ⟨t, hrun, hlive, hrem, hexecuted, -⟩ := exists_run_launch_append r [] hsafe
  rw [List.append_nil, run_of_remaining_nil hlive hrem] at hrun
  obtain ⟨-, hpc⟩ := run_inv (launch_inv r ws)
  rw [hrun] at hpc ⊢
  exact ⟨hlive.halted hrem, hexecuted, hexecuted ▸ hpc⟩

/-- Settles O50: the state reached after the legal words is live, and the recursion starts from its registers and pc. -/
theorem runsComposeInStreamOrder : Obligations.RunsComposeInStreamOrder := by
  intro r as bs hsafe
  obtain ⟨t, hrun, hlive, hrem, -, harch⟩ := exists_run_launch_append r bs hsafe
  rw [hrun, ← harch]
  exact run_eq_specRun hlive hrem

/-- Equal architectural states have the same registers and pc. -/
theorem eq_of_arch_eq {s t : State} (h : s.arch = t.arch) : (∀ r, s.readReg r = t.readReg r) ∧ s.pc = t.pc :=
  ⟨congrFun (congrArg ArchState.x h), congrArg ArchState.pc h⟩

/-- Settles O49: the illegal word stops the run in the state that the legal words reach. -/
theorem firstIllegalWordEndsTheRun : Obligations.FirstIllegalWordEndsTheRun := by
  intro r pre post w hsafe hillegal
  have hstream := run_stream (State.launch r (pre ++ w :: post))
  obtain ⟨-, hlength, hoffset⟩ := safeStreamRunsToItsEnd r pre hsafe
  obtain ⟨t, hrun, hlive, hrem, hexecuted, harch⟩ := exists_run_launch_append r (w :: post) hsafe
  obtain ⟨hregs, hpc⟩ := eq_of_arch_eq harch
  rw [run_of_illegal hlive hrem (legal_eq_false_iff.mp hillegal)] at hrun
  rw [hrun] at hstream ⊢
  refine State.ext_readReg hregs hpc hstream (hexecuted.trans hlength.symm) ?_
  rw [← hoffset, ← hpc]

end Sys2Proof.Machine
end
